-- ==== Sys2Proof/Word.lean ====
section
/-! DEFINITION. The words of the TH02 compensation block: bit vectors of the widths 00_scope.md R6 fixes. -/

namespace Sys2Proof

/-- An 8-bit device register value, or an operand byte (00_scope.md R6, 30_encoding.md R60). -/
abbrev Byte := BitVec 8

/-- A 16-bit command word: OP = cmd[15:8], OPD = cmd[7:0] (30_encoding.md R60). -/
abbrev CmdWord := BitVec 16

/-- A 7-bit device bus address (10_state.md R21). -/
abbrev DevAddr := BitVec 7

/-- An 8-bit register address in the device register space (20_memory.md R40). -/
abbrev RegAddr := BitVec 8

/-- A 32-bit word: the VALUE of a response, LAST_T or LAST_H (30_encoding.md R61, 10_state.md R22, R23). -/
abbrev Value := BitVec 32

end Sys2Proof
end

