-- ==== Sys2Proof/Syntax.lean ====
section
/-! DEFINITION. The commands: one constructor for each row of spec/opcode_table.json, and the four operand formats. -/

namespace Sys2Proof

/-- A command with its operands (30_encoding.md R62, R63). The docstring of each constructor gives its rule. -/
inductive Instr where
  /-- GET_ID, 40_register_access.md R80 -/
  | getId
  /-- GET_STATUS, 40_register_access.md R81 -/
  | getStatus
  /-- GET_CONFIG, 40_register_access.md R82 -/
  | getConfig
  /-- SET_CONFIG cfg, 40_register_access.md R83 -/
  | setConfig (cfg : Byte)
  /-- START_TEMP fast, heat, 41_conversion_sequencing.md R102 -/
  | startTemp (fast heat : Bool)
  /-- START_HUM fast, heat, 41_conversion_sequencing.md R103 -/
  | startHum (fast heat : Bool)
  /-- IS_CONVERTING, 41_conversion_sequencing.md R105 -/
  | isConverting
  /-- WAIT_CONV, 41_conversion_sequencing.md R106 -/
  | waitConv
  /-- READ_RESULT, 42_measurement_decode.md R136 -/
  | readResult
  /-- COMP_HUM hp, 43_humidity_compensation.md R164 -/
  | compHum (hp : Bool)
  /-- GET_LAST_TEMP, 44_accessors.md R180 -/
  | getLastTemp
  /-- GET_LAST_HUM, 44_accessors.md R181 -/
  | getLastHum
deriving DecidableEq, Repr

/-- The four operand formats of 30_encoding.md R60. -/
inductive Format where
  | z    -- no operand
  | i8   -- the configuration byte
  | fh   -- FAST and HEAT
  | p    -- HP
deriving DecidableEq, Repr

/-- The format of each command (30_encoding.md R60, R62). -/
def Instr.format : Instr → Format
  | .getId => .z
  | .getStatus => .z
  | .getConfig => .z
  | .setConfig _ => .i8
  | .startTemp _ _ => .fh
  | .startHum _ _ => .fh
  | .isConverting => .z
  | .waitConv => .z
  | .readResult => .z
  | .compHum _ => .p
  | .getLastTemp => .z
  | .getLastHum => .z

/-- Why a word is illegal (30_encoding.md R65): its OP is assigned to no command, or a reserved OPD bit is set. -/
inductive IllegalReason where
  | unassignedOpcode (op : Byte)
  | reservedOperandBits (op opd : Byte)
deriving DecidableEq, Repr

end Sys2Proof
end

