-- ==== Sys2Proof/WellFormed.lean ====
section
/-! DEFINITION. Well-formedness: the reserved OPD bits of each format are 0 (30_encoding.md R60). -/

namespace Sys2Proof

/-- The reserved OPD bits of a format (the table of 30_encoding.md R60): all of Z, none of I8, bits 7, 6, 4, 3, 2, 0
of FH, bits 7:1 of P. -/
def Format.reservedMask : Format → Byte
  | .z => 0xFF#8
  | .i8 => 0x00#8
  | .fh => 0xDD#8
  | .p => 0xFE#8

/-- The check on an operand byte: no reserved bit of its format is set (30_encoding.md R60, R65). -/
def Format.operandWf (f : Format) (opd : Byte) : Bool :=
  opd &&& f.reservedMask == 0x00#8

/-- The FH operand byte: F<<5 | H<<1 (30_encoding.md R63, R69). -/
def fhByte (fast heat : Bool) : Byte :=
  (if fast then 0x20#8 else 0x00#8) ||| (if heat then 0x02#8 else 0x00#8)

/-- The P operand byte: HP at bit 0 (30_encoding.md R63, R69). -/
def hpByte (hp : Bool) : Byte :=
  if hp then 0x01#8 else 0x00#8

/-- The operand byte that carries a command's operands (30_encoding.md R63, R69). -/
def Instr.operandByte : Instr → Byte
  | .getId => 0x00#8
  | .getStatus => 0x00#8
  | .getConfig => 0x00#8
  | .setConfig cfg => cfg
  | .startTemp fast heat => fhByte fast heat
  | .startHum fast heat => fhByte fast heat
  | .isConverting => 0x00#8
  | .waitConv => 0x00#8
  | .readResult => 0x00#8
  | .compHum hp => hpByte hp
  | .getLastTemp => 0x00#8
  | .getLastHum => 0x00#8

/-- A command is well formed when its operand byte sets no reserved bit of its format. The operand types of `Instr` are
exactly as wide as the fields, so every `Instr` is (`Instr.wf_all` in Laws/Encoding.lean); the check itself refuses bytes. -/
def Instr.wf (i : Instr) : Bool :=
  i.format.operandWf i.operandByte

end Sys2Proof
end

