-- ==== Sys2Proof/Decode.lean ====
section
/-! DEFINITION. The decoder of 30_encoding.md R64, total on all 2^16 words and rejecting by name, and after it the encoder
(R62, R69), the opcode map as data (R62), and the words' serialised bytes (R60). -/

namespace Sys2Proof

/-- OP = cmd[15:8] (30_encoding.md R60). -/
def opField (w : CmdWord) : Byte := w.extractLsb' 8 8

/-- OPD = cmd[7:0] (30_encoding.md R60). -/
def opdField (w : CmdWord) : Byte := w.extractLsb' 0 8

/-- The word with these two fields: OP in bits 15:8, OPD in bits 7:0 (30_encoding.md R60). -/
def joinFields (op opd : Byte) : CmdWord := (op.setWidth 16 <<< 8) ||| opd.setWidth 16

/-- `i`, if `opd` sets no reserved bit of `i`'s format; else the word is rejected by name (30_encoding.md R64, R65). -/
def acceptOperand (op opd : Byte) (i : Instr) : Except IllegalReason Instr :=
  if i.format.operandWf opd then .ok i else .error (.reservedOperandBits op opd)

/-- The decoder, rejecting by name. The arms and the operand assembly are those of 30_encoding.md R64 and R63. -/
def decodeNamed (w : CmdWord) : Except IllegalReason Instr :=
  let op := opField w
  let opd := opdField w
  match op.toNat with
  | 0x01 => acceptOperand op opd .getId
  | 0x02 => acceptOperand op opd .getStatus
  | 0x03 => acceptOperand op opd .getConfig
  | 0x04 => acceptOperand op opd (.setConfig opd)
  | 0x10 => acceptOperand op opd (.startTemp (opd.getLsbD 5) (opd.getLsbD 1))
  | 0x11 => acceptOperand op opd (.startHum (opd.getLsbD 5) (opd.getLsbD 1))
  | 0x12 => acceptOperand op opd .isConverting
  | 0x13 => acceptOperand op opd .waitConv
  | 0x14 => acceptOperand op opd .readResult
  | 0x20 => acceptOperand op opd (.compHum (opd.getLsbD 0))
  | 0x21 => acceptOperand op opd .getLastTemp
  | 0x22 => acceptOperand op opd .getLastHum
  | _ => .error (.unassignedOpcode op)

/-- `decode(cmd)` of 30_encoding.md R64: the command, or none for an illegal word (R65). -/
def decode (w : CmdWord) : Option Instr :=
  match decodeNamed w with
  | .ok i => some i
  | .error _ => none

/-- The OP byte of each command (30_encoding.md R62). -/
def Instr.opcode : Instr → Byte
  | .getId => 0x01#8
  | .getStatus => 0x02#8
  | .getConfig => 0x03#8
  | .setConfig _ => 0x04#8
  | .startTemp _ _ => 0x10#8
  | .startHum _ _ => 0x11#8
  | .isConverting => 0x12#8
  | .waitConv => 0x13#8
  | .readResult => 0x14#8
  | .compHum _ => 0x20#8
  | .getLastTemp => 0x21#8
  | .getLastHum => 0x22#8

/-- The word of a command: its OP byte, then its operand byte, "match | operand bits" (30_encoding.md R60, R69). -/
def encode (i : Instr) : CmdWord := joinFields i.opcode i.operandByte

/-- A command's name in spec/opcode_table.json (30_encoding.md R62). -/
def Instr.mnemonic : Instr → String
  | .getId => "GET_ID"
  | .getStatus => "GET_STATUS"
  | .getConfig => "GET_CONFIG"
  | .setConfig _ => "SET_CONFIG"
  | .startTemp _ _ => "START_TEMP"
  | .startHum _ _ => "START_HUM"
  | .isConverting => "IS_CONVERTING"
  | .waitConv => "WAIT_CONV"
  | .readResult => "READ_RESULT"
  | .compHum _ => "COMP_HUM"
  | .getLastTemp => "GET_LAST_TEMP"
  | .getLastHum => "GET_LAST_HUM"

/-- The opcode map of 30_encoding.md R62, row by row: (mnemonic, match, mask). -/
def opcodeRows : List (String × CmdWord × CmdWord) :=
  [ ("GET_ID", 0x0100#16, 0xFFFF#16),
    ("GET_STATUS", 0x0200#16, 0xFFFF#16),
    ("GET_CONFIG", 0x0300#16, 0xFFFF#16),
    ("SET_CONFIG", 0x0400#16, 0xFF00#16),
    ("START_TEMP", 0x1000#16, 0xFFDD#16),
    ("START_HUM", 0x1100#16, 0xFFDD#16),
    ("IS_CONVERTING", 0x1200#16, 0xFFFF#16),
    ("WAIT_CONV", 0x1300#16, 0xFFFF#16),
    ("READ_RESULT", 0x1400#16, 0xFFFF#16),
    ("COMP_HUM", 0x2000#16, 0xFFFE#16),
    ("GET_LAST_TEMP", 0x2100#16, 0xFFFF#16),
    ("GET_LAST_HUM", 0x2200#16, 0xFFFF#16) ]

/-- "A word cmd selects a row when (cmd & mask) == match" (30_encoding.md R62). -/
def selectsRow (w : CmdWord) (row : String × CmdWord × CmdWord) : Bool :=
  w &&& row.2.2 == row.2.1

/-- A word's two bytes where a host port serialises it: "the OP byte goes first" (30_encoding.md R60). -/
def serialiseWord (w : CmdWord) : List Byte := [opField w, opdField w]

/-- The word of two serialised bytes (30_encoding.md R60); none for any other number of bytes, since every command has
the length of one word. -/
def wordOfBytes : List Byte → Option CmdWord
  | [op, opd] => some (joinFields op opd)
  | _ => none

/-- The decoder on the bytes of a serialised word. -/
def decodeBytes (bs : List Byte) : Option Instr :=
  match wordOfBytes bs with
  | some w => decode w
  | none => none

/-- What the decoder reads from an instruction of spec/opcode_table.json whose bits are `w`. Every row is one 16-bit word,
so `w` is that word and the number of bits adds nothing (log entry 16). -/
def decodeTableWord (_nbits w : Nat) : Option Instr :=
  if w < 2 ^ 16 then decode (BitVec.ofNat 16 w) else none

end Sys2Proof
end

