-- ==== Sys2Proof/Config.lean ====
section
/-! DEFINITION. What an implementation fixes (the parameters of 00_scope.md R6), the calls and events of the
bus port and the delay port, and the values the spec leaves open, each an opaque constant. -/

namespace Sys2Proof

/-- RDY_POLARITY (00_scope.md R6, 10_state.md R30): what RDY = 1 means. -/
inductive RdyPolarity where
  | readyHigh   -- RDY = 1 means ready: the default
  | readyLow    -- RDY = 0 means ready
deriving DecidableEq, Repr

/-- FLOAT_FORMAT (00_scope.md R6, 92_eei_decisions.md D6): the IEEE 754 format of COMP_HUM. -/
inductive FloatFormat where
  | binary64   -- the default
  | binary32
deriving DecidableEq, Repr

/-- The parameters of 00_scope.md R6 that are plain data. They are fixed for a machine (log entry 3). -/
structure Params where
  devAddr     : DevAddr
  rdyPolarity : RdyPolarity
  floatFormat : FloatFormat
deriving DecidableEq, Repr

/-- The kinds of read that READ_HOLD tells apart (92_eei_decisions.md D17: `READ_HOLD : ReadKind → Bool`): one for
each read the rules write (20_memory.md R45). DESIGN CHOICE: the spec does not list the kinds (log entry 4). -/
inductive ReadKind where
  | getId          -- GET_ID's read of ID
  | getStatus      -- GET_STATUS's read of STATUS
  | getConfig      -- GET_CONFIG's read of CONFIG
  | isConverting   -- IS_CONVERTING's read of STATUS
  | waitConv       -- each poll of WAIT_CONV
  | resultData     -- READ_RESULT's 2-byte read of DATA_HIGH, DATA_LOW
  | resultConfig   -- READ_RESULT's read-back of CONFIG
deriving DecidableEq, Repr

/-- One BusTransport call (20_memory.md R41, R42): the device address, the register address, and the length and hold
flag of a read or the byte of a write. -/
inductive BusCall where
  | read  (dev : DevAddr) (reg : RegAddr) (len : Nat) (hold : Bool)
  | write (dev : DevAddr) (reg : RegAddr) (data : Byte)
deriving DecidableEq, Repr

/-- The device's answer to one call, a draw (20_memory.md R46). `ok b0 b1` is an answer to any call: a 1-byte read takes
b0, a 2-byte read takes b0 then b1, a write takes neither, so every outcome of every call is one of these and no answer
is out of place. DESIGN CHOICE: log entry 1. -/
inductive Answer where
  | err
  | ok (b0 b1 : Byte)
deriving DecidableEq, Repr, Inhabited

/-- One event of the observable trace (92_eei_decisions.md D34, 00_scope.md R9). A read's reply is the bytes it
returned, or none for Err; a write's `ok` is false for Err. -/
inductive BusEvent where
  | read  (dev : DevAddr) (reg : RegAddr) (len : Nat) (hold : Bool) (reply : Option (List Byte))
  | write (dev : DevAddr) (reg : RegAddr) (data : Byte) (ok : Bool)
  | sleep
deriving DecidableEq, Repr

/-- The quantity of a conversion (00_scope.md R10), chosen by the TEMP bit of CONFIG. -/
inductive Quantity where
  | temp
  | hum
deriving DecidableEq, Repr

/-- FREE VALUE (20_memory.md R46, log entry 1): what the device answers to a call where State lists no answer for it. It
depends on everything the block did before (the trace) and on the call, and nothing else is known of it. -/
opaque Config.deviceAnswer : List BusEvent → BusCall → Answer

/-- FREE VALUE: READ_HOLD, which the spec leaves OPEN (00_scope.md R6, 20_memory.md R42, log entry 4). -/
opaque Config.readHold : ReadKind → Bool

/-- FREE VALUE: the VALUE of a COMP_HUM whose exact integer result lies outside the signed 32-bit range. The spec states
no value there, and no run reaches it (43_humidity_compensation.md R164, R166; log entry 7). -/
opaque Config.unfitValue : Int → Value

end Sys2Proof
end

