-- ==== Sys2Proof/Machine/Constants.lean ====
section
/-! DEFINITION. The fixed values of 00_scope.md R6, 10_state.md R29 and R31, and 43_humidity_compensation.md R160, exactly
as the spec writes them. The source calls its numeric literals unaudited (R6): UNVERIFIED against a chip, log entry 17. -/

namespace Sys2Proof.Machine

/-! The register map (10_state.md R29). -/

def regStatus : RegAddr := 0x00#8
def regDataHigh : RegAddr := 0x01#8
def regDataLow : RegAddr := 0x02#8
def regConfig : RegAddr := 0x03#8
def regId : RegAddr := 0x11#8

/-! The flags of CONFIG (10_state.md R31). -/

def maskStart : Byte := 0x01#8
def maskHeat : Byte := 0x02#8
def maskTemp : Byte := 0x10#8
def maskFast : Byte := 0x20#8

/-! The sentinels (00_scope.md R6). -/

/-- SENT_T: the temperature was never measured. -/
def sentT : Value := 55555#32
/-- SENT_H: the humidity was never measured. -/
def sentH : Value := 1111#32
/-- SENT_U: the undefined result of a failed READ_RESULT, the sign extension of a 16-bit 12345
(42_measurement_decode.md R136). -/
def sentU : Value := 12345#32
/-- The STATUS error byte 0xFF, zero-extended (40_register_access.md R80, R81, R82). -/
def errorByteValue : Value := 0x000000FF#32

/-- TIMEOUT: 50 time units, so 50 polls and 50 waits (41_conversion_sequencing.md R106). -/
def timeoutUnits : Nat := 50

/-- The parameters' default values (00_scope.md R6). READY_HIGH is the source's choice, not a measured fact
(UNVERIFIED, log entry 18). -/
def defaultParams : Params :=
  { devAddr := 0x40#7, rdyPolarity := .readyHigh, floatFormat := .binary64 }

/-! The calibration literals as exact decimals (43_humidity_compensation.md R160). -/

def litA0 : Rat := mkRat (-47844) 10000
def litA1 : Rat := mkRat 4008 10000
def litA2 : Rat := mkRat (-393) 100000
def litQ0 : Rat := mkRat 1973 10000
def litQ1 : Rat := mkRat 237 100000
def litTref : Rat := mkRat 30 1
def lit100 : Rat := mkRat 100 1
def lit10 : Rat := mkRat 10 1
def litHalf : Rat := mkRat 1 2

end Sys2Proof.Machine
end

