-- ==== Sys2Proof/Machine/State.lean ====
section
/-! DEFINITION. The state of the machine as plain data: the block's three registers, the host's command sequence and its
index, the responses, the observable trace, the parameters, and the device's answers still to come. -/

namespace Sys2Proof.Machine

/-- The typed STATUS of a response (60_exceptions.md R201). Its 2-bit codes are `Status.code`. -/
inductive Status where
  | ok
  | busError
  | timeout
  | illegalCommand
deriving DecidableEq, Repr

/-- A response: STATUS and VALUE, delivered together when a command ends (30_encoding.md R61). -/
structure Response where
  status : Status
  value  : Value
deriving DecidableEq, Repr

/-- The state between two commands. INVENTORY.md, "## State", gives each field's rule and reset value. -/
structure State where
  /-- DEV_ADDR, RDY_POLARITY and FLOAT_FORMAT (00_scope.md R6), which no step changes (log entry 3) -/
  params    : Params
  /-- ADDR (10_state.md R21) -/
  addr      : DevAddr
  /-- LAST_T (10_state.md R22) -/
  lastT     : Value
  /-- LAST_H (10_state.md R23) -/
  lastH     : Value
  /-- the index of the next command in the host's sequence (10_state.md R27) -/
  pc        : Nat
  /-- the host's sequence of command words (10_state.md R27) -/
  program   : List CmdWord
  /-- the responses delivered since reset, oldest first (30_encoding.md R61, log entry 9) -/
  responses : List Response
  /-- the bus calls and sleeps made, oldest first (92_eei_decisions.md D34, log entry 9) -/
  trace     : List BusEvent
  /-- THE MODEL'S OWN: the device's answers still to come, one for each bus call (20_memory.md R46, log entry 1) -/
  answers   : List Answer
deriving DecidableEq, Repr

/-- The block has no fault: "A model has no fault outcome for any command word" (60_exceptions.md R200, log entry 19).
No constructor, so nothing raises one. -/
inductive Fault where
deriving DecidableEq, Repr

/-- Why a step can be refused. -/
inductive Refusal where
  /-- raised by an arm of `exec` for an instruction that has no meaning in the model; no arm raises it. Safe. -/
  | notModelled (mnemonic : String)
deriving DecidableEq, Repr

/-- The machine right after reset, with the given parameters (10_state.md R37, 70_reset_and_hazards.md R230): no bus
event, no response, no command presented (log entries 1, 2 and 9). -/
def State.resetWith (p : Params) : State :=
  { params := p, addr := p.devAddr, lastT := sentT, lastH := sentH, pc := 0, program := [],
    responses := [], trace := [], answers := [] }

/-- The machine right after reset, with the parameters' default values (00_scope.md R6). -/
def State.reset : State := State.resetWith defaultParams

end Sys2Proof.Machine
end

