-- ==== Sys2Proof/Machine/Flags.lean ====
section
/-! DEFINITION. The tests on flags. The block has no flag register (10_state.md R28); these are the tests it makes on the
outcome of a bus call and on bits of the device's STATUS and CONFIG. -/

namespace Sys2Proof.Machine

/-- The ready test (41_conversion_sequencing.md R104): only RDY, bit 0, is tested, and a failed read counts as busy. -/
def busy (pol : RdyPolarity) (reply : Option Byte) : Bool :=
  match reply with
  | some b =>
    match pol with
    | .readyHigh => b.getLsbD 0 == false
    | .readyLow => b.getLsbD 0 == true
  | none => true

/-- The TEMP bit of a CONFIG byte, bit 4 (10_state.md R31, 42_measurement_decode.md R136). -/
def tempBit (cfg : Byte) : Bool := cfg.getLsbD 4

/-- The START bit of a CONFIG byte, bit 0 (10_state.md R31). -/
def startBit (cfg : Byte) : Bool := cfg.getLsbD 0

/-- The HEAT bit of a CONFIG byte, bit 1 (10_state.md R31). -/
def heatBit (cfg : Byte) : Bool := cfg.getLsbD 1

/-- The quantity a CONFIG byte selects by its TEMP bit (10_state.md R31). -/
def quantityOf (cfg : Byte) : Quantity := if tempBit cfg then .temp else .hum

/-- OK where the bus call returned Ok, BUS_ERROR where it returned Err (40_register_access.md R84, 60_exceptions.md
R201). -/
def callStatus (ok : Bool) : Status := if ok then .ok else .busError

end Sys2Proof.Machine
end

