-- ==== Sys2Proof/Machine/Operands.lean ====
section
/-! DEFINITION. The bytes and values a command assembles: the configuration byte of a start, the ADC code, and the
conversions of integers to response values. -/

namespace Sys2Proof.Machine

/-- cfgStart(q, fast, heat) (41_conversion_sequencing.md R101). -/
def cfgStart (q : Quantity) (fast heat : Bool) : Byte :=
  maskStart
    ||| (match q with | .temp => maskTemp | .hum => 0x00#8)
    ||| (if fast then maskFast else 0x00#8)
    ||| (if heat then maskHeat else 0x00#8)

/-- The ADC code: the first byte read is bits 15:8 and the second bits 7:0 (20_memory.md R43, 42_measurement_decode.md
R130). -/
def adcCode (b0 b1 : Byte) : Nat := b0.toNat * 256 + b1.toNat

/-- zext_32 of a byte (00_scope.md R7). -/
def zext32 (b : Byte) : Value := b.setWidth 32

/-- sext_32 of an integer stored in 16 signed bits (00_scope.md R7, 42_measurement_decode.md R136). -/
def sext32 (n : Int) : Value := (BitVec.ofInt 16 n).signExtend 32

/-- The 32-bit pattern of an integer in the signed 32-bit range; outside it the VALUE is unstated, a free value
(43_humidity_compensation.md R163, R164; log entry 7). -/
def fitS32 (n : Int) : Value :=
  if -2147483648 ≤ n ∧ n ≤ 2147483647 then BitVec.ofInt 32 n else Config.unfitValue n

/-- 1 for success and 0 for failure: the legacy VALUE of a CONFIG write, and of IS_CONVERTING's test
(30_encoding.md R61). -/
def boolValue (b : Bool) : Value := if b then 1#32 else 0#32

/-- The 2-bit code of a STATUS (60_exceptions.md R201). -/
def Status.code : Status → BitVec 2
  | .ok => 0#2
  | .busError => 1#2
  | .timeout => 2#2
  | .illegalCommand => 3#2

end Sys2Proof.Machine
end

