-- ==== Sys2Proof/Machine/Ops.lean ====
section
/-! DEFINITION. The operations every command is made of: the bus port, the delay port, the two writable registers, the
response (with ILLEGAL_COMMAND, the block's only answer to a word it cannot run), the command port, and reset. -/

namespace Sys2Proof.Machine

/-! ### The bus port (20_memory.md R41 to R47) -/

/-- The device's answer to a call made now: the next listed answer, else a free value (log entry 1). -/
def State.answerTo (s : State) (c : BusCall) : Answer :=
  match s.answers with
  | a :: _ => a
  | [] => Config.deviceAnswer s.trace c

/-- One bus call was made and recorded: its answer is used up (92_eei_decisions.md D34). -/
def State.afterCall (s : State) (e : BusEvent) : State :=
  { s with answers := s.answers.tail, trace := s.trace ++ [e] }

/-- The read call of a kind, to ADDR (10_state.md R21, 20_memory.md R42). -/
def State.readCall (s : State) (k : ReadKind) (reg : RegAddr) (len : Nat) : BusCall :=
  .read s.addr reg len (Config.readHold k)

/-- The event a read of a kind records. -/
def State.readEvent (s : State) (k : ReadKind) (reg : RegAddr) (len : Nat) (reply : Option (List Byte)) : BusEvent :=
  .read s.addr reg len (Config.readHold k) reply

/-- The byte a 1-byte read takes from an answer, none for Err. -/
def replyByte (a : Answer) : Option Byte :=
  match a with
  | .ok b0 _ => some b0
  | .err => none

/-- The two bytes a 2-byte read takes from an answer, none for Err: one draw of a byte pair (20_memory.md R46). -/
def replyPair (a : Answer) : Option (Byte × Byte) :=
  match a with
  | .ok b0 b1 => some (b0, b1)
  | .err => none

/-- Whether a write's answer is Ok. -/
def writeAccepted (a : Answer) : Bool :=
  match a with
  | .ok _ _ => true
  | .err => false

/-- `MemRead(reg, 1)` (00_scope.md R9): its reply, and the state after it. -/
def memRead1 (k : ReadKind) (reg : RegAddr) (s : State) : Option Byte × State :=
  let reply := replyByte (s.answerTo (s.readCall k reg 1))
  (reply, s.afterCall (s.readEvent k reg 1 (reply.map fun b => [b])))

/-- `MemRead(reg, 2)` (00_scope.md R9, 20_memory.md R42): the bytes of `reg` and `reg + 1`, in that order. -/
def memRead2 (k : ReadKind) (reg : RegAddr) (s : State) : Option (Byte × Byte) × State :=
  let reply := replyPair (s.answerTo (s.readCall k reg 2))
  (reply, s.afterCall (s.readEvent k reg 2 (reply.map fun p => [p.1, p.2])))

/-- `MemWrite(reg, 1, v)` (00_scope.md R9, 20_memory.md R41): whether it was Ok, and the state after it. -/
def memWrite (reg : RegAddr) (v : Byte) (s : State) : Bool × State :=
  let ok := writeAccepted (s.answerTo (.write s.addr reg v))
  (ok, s.afterCall (.write s.addr reg v ok))

/-! ### The delay port -/

/-- `Sleep(1)` (00_scope.md R9): one recorded event; it always returns, with no result. -/
def sleepOne (s : State) : State := { s with trace := s.trace ++ [.sleep] }

/-! ### The two writable registers (10_state.md R22, R23) -/

def setLastT (v : Value) (s : State) : State := { s with lastT := v }

def setLastH (v : Value) (s : State) : State := { s with lastH := v }

/-! ### The response port -/

/-- `respond(status, value)` (00_scope.md R9): delivers the response and ends the command, and then `pc <- pc + 1`
(10_state.md R27). -/
def respond (st : Status) (v : Value) (s : State) : State :=
  { s with responses := s.responses ++ [⟨st, v⟩], pc := s.pc + 1 }

/-- `raise IllegalCommand(cmd)` (00_scope.md R9, 30_encoding.md R65, 60_exceptions.md R204): the response
(ILLEGAL_COMMAND, 0), no bus event, no register changed. The block has no trap to take and none to return from
(60_exceptions.md R200, R207, R208). -/
def raiseIllegal (s : State) : State := respond .illegalCommand 0#32 s

/-! ### The command port (70_reset_and_hazards.md R233) -/

/-- The word the host presents now, none where its sequence has ended (10_state.md R27). -/
def State.fetch (s : State) : Option CmdWord := s.program[s.pc]?

/-- The latest response, none before the first one (10_state.md R37). -/
def State.lastResponse (s : State) : Option Response := s.responses.getLast?

/-- The host presents one more word: it is held until every earlier one has been answered (70_reset_and_hazards.md R233). -/
def State.present (s : State) (w : CmdWord) : State := { s with program := s.program ++ [w] }

/-- The device's next answers, after those already listed (20_memory.md R46, log entry 1). -/
def State.supply (s : State) (as : List Answer) : State := { s with answers := s.answers ++ as }

/-- `ws` with the word `w` at index `n`; an index past the end is reached over words 0x0000 (log entry 16). -/
def placeWord (ws : List CmdWord) (n : Nat) (w : CmdWord) : List CmdWord :=
  match ws, n with
  | [], 0 => [w]
  | [], n + 1 => 0x0000#16 :: placeWord [] n w
  | _ :: rest, 0 => w :: rest
  | x :: rest, n + 1 => x :: placeWord rest n w

/-- The completed commands since reset, oldest first: each word with its response (41_conversion_sequencing.md R108). -/
def State.history (s : State) : List (CmdWord × Response) := (s.program.take s.pc).zip s.responses

/-! ### Reset as an act of the host (70_reset_and_hazards.md R230, R231) -/

/-- The host resets the block and issues the sequence `ws` after it. The block's registers take their reset values, no
response exists, and pc is 0. There is no bus call and no sleep, and the device is untouched: the trace and the
answers to come stay (log entry 13). -/
def State.applyReset (s : State) (ws : List CmdWord) : State :=
  { s with addr := s.params.devAddr, lastT := sentT, lastH := sentH, pc := 0, program := ws, responses := [] }

end Sys2Proof.Machine
end

