-- ==== Sys2Proof/Machine/Accessors.lean ====
section
/-! DEFINITION. The state accessors (44_accessors.md): GET_LAST_TEMP and GET_LAST_HUM. -/

namespace Sys2Proof.Machine

/-- GET_LAST_TEMP (44_accessors.md R180). -/
def execGetLastTemp (s : State) : Host.Outcome State Fault Refusal :=
  .next (respond .ok s.lastT s)

/-- GET_LAST_HUM (44_accessors.md R181). -/
def execGetLastHum (s : State) : Host.Outcome State Fault Refusal :=
  .next (respond .ok s.lastH s)

end Sys2Proof.Machine
end

