-- ==== Sys2Proof/Machine/Float.lean ====
section
/-! DEFINITION. The floating-point notation of 00_scope.md R8: the rounding of IEEE 754 binary64 and binary32 to nearest,
ties to even, on exact rationals, and the rounding helper of 42_measurement_decode.md R134.

A value of the format F is held as the exact rational it denotes. Each operation `fl(a op b)` is `fl F (a op b)`: the exact
result, rounded once. The rules reach no NaN and no infinity (R134, R164), and -0.0 acts as 0 in every operation they use
(log entry 5). What the IEEE 754 words mean is PRESUMED from the standard, as R8 itself says (log entry 6). -/

namespace Sys2Proof.Machine

/-- The significand's bits p: 53 in binary64, 24 in binary32. PRESUMED, log entry 6. -/
def precision : FloatFormat → Nat
  | .binary64 => 53
  | .binary32 => 24

/-- The exponent of the least subnormal: every value of the format is a multiple of 2 to it. PRESUMED, log entry 6. -/
def leastExponent : FloatFormat → Int
  | .binary64 => -1074
  | .binary32 => -149

/-- 2^e as an exact rational. -/
def pow2 (e : Int) : Rat :=
  match e with
  | .ofNat k => mkRat ((2 ^ k : Nat) : Int) 1
  | .negSucc k => mkRat 1 (2 ^ (k + 1))

/-- The greatest e with 2^e ≤ x, for a positive x. -/
def floorLog2 (x : Rat) : Int :=
  let l : Int := (Nat.log2 x.num.natAbs : Int) - (Nat.log2 x.den : Int)
  if x < pow2 l then l - 1 else l

/-- The nearest integer, ties to even. -/
def nearestEven (y : Rat) : Int :=
  let f := y.floor
  let r := y - (f : Rat)
  if r < litHalf then f
  else if litHalf < r then f + 1
  else if f % 2 = 0 then f else f + 1

/-- The exponent of the last place of the format's value nearest to a positive x. -/
def lastPlace (F : FloatFormat) (x : Rat) : Int :=
  max (leastExponent F) (floorLog2 x - ((precision F : Int) - 1))

/-- Rounding of a positive x: to the nearest multiple of its last place, ties to even. -/
def flPos (F : FloatFormat) (x : Rat) : Rat :=
  (nearestEven (x / pow2 (lastPlace F x)) : Rat) * pow2 (lastPlace F x)

/-- `fl( )`: the exact value x rounded to the format F, to nearest, ties to even (00_scope.md R8). -/
def fl (F : FloatFormat) (x : Rat) : Rat :=
  if x = 0 then 0 else if x < 0 then -(flPos F (-x)) else flPos F x

/-- `toF(n)` for an integer (00_scope.md R8). It is exact where |n| < 2^24; a greater integer, which no run converts, is
rounded (log entry 6). -/
def toF (F : FloatFormat) (n : Int) : Rat := fl F (mkRat n 1)

/-- `toF(lit)` for a decimal literal: the nearest value of F, ties to even (00_scope.md R8). -/
def toFLit (F : FloatFormat) (lit : Rat) : Rat := fl F lit

/-- `trunc(y)`: toward zero (00_scope.md R8). -/
def truncF (y : Rat) : Int := if y < 0 then y.ceil else y.floor

/-- The rounding helper, half away from zero (42_measurement_decode.md R134). -/
def roundHelper (F : FloatFormat) (y : Rat) : Int :=
  if 0 ≤ y then (fl F (y + toFLit F litHalf)).floor
  else (fl F (y - toFLit F litHalf)).ceil

/-- The bits of the format's encoding of a value of the format: sign, biased exponent, fraction. It serves only to check
the encodings of 43_humidity_compensation.md R160 (log entry 6). -/
def encodeF (F : FloatFormat) (x : Rat) : Nat :=
  if x = 0 then 0
  else
    let a : Rat := if x < 0 then -x else x
    let e := lastPlace F a
    let m : Nat := (a / pow2 e).floor.toNat
    let hidden : Nat := 2 ^ (precision F - 1)
    let sign : Nat := if x < 0 then 1 else 0
    let width : Nat := match F with | .binary64 => 64 | .binary32 => 32
    let biased : Nat := if m < hidden then 0 else (e - leastExponent F + 1).toNat
    let fraction : Nat := if m < hidden then m else m - hidden
    sign * 2 ^ (width - 1) + biased * hidden + fraction

end Sys2Proof.Machine
end

