-- ==== Sys2Proof/Machine/Compensation.lean ====
section
/-! DEFINITION. Humidity compensation (43_humidity_compensation.md): the two stages, the output conversion, and
COMP_HUM. Each `fl` is one IEEE 754 operation, in the order of the rules. -/

namespace Sys2Proof.Machine

/-- Stage 1, linearization, of the humidity ×100 (43_humidity_compensation.md R161). -/
def linearize (F : FloatFormat) (lastH : Int) : Rat :=
  let v := fl F (toF F lastH / toFLit F lit100)
  let quad := fl F (toFLit F litA2 * fl F (v * v))
  let p := fl F (fl F (quad + fl F (toFLit F litA1 * v)) + toFLit F litA0)
  fl F (v - p)

/-- Stage 2, temperature compensation, of the linearized humidity by the temperature ×100 (43_humidity_compensation.md
R162). -/
def temperatureCompensate (F : FloatFormat) (lin : Rat) (lastT : Int) : Rat :=
  let d := fl F (fl F (toF F lastT / toFLit F lit100) - toFLit F litTref)
  let k := fl F (fl F (lin * toFLit F litQ1) + toFLit F litQ0)
  fl F (lin + fl F (d * k))

/-- The calibrated humidity: stage 2 applies only where a temperature was measured (43_humidity_compensation.md R162). -/
def calibrated (F : FloatFormat) (lastT lastH : Value) : Rat :=
  if lastT = sentT then linearize F lastH.toInt
  else temperatureCompensate F (linearize F lastH.toInt) lastT.toInt

/-- Rescaling and output (43_humidity_compensation.md R163): truncation with HP = 1, the rounding helper with HP = 0. -/
def scaleOutput (F : FloatFormat) (hp : Bool) (out : Rat) : Int :=
  let sc := fl F (out * toFLit F lit100)
  if hp then truncF sc else roundHelper F (fl F (sc / toFLit F lit10))

/-- COMP_HUM's integer result where a humidity was measured (43_humidity_compensation.md R161, R162, R163). -/
def compResult (F : FloatFormat) (hp : Bool) (lastT lastH : Value) : Int :=
  scaleOutput F hp (calibrated F lastT lastH)

/-- COMP_HUM's VALUE (43_humidity_compensation.md R164): the sentinel 1111 unchanged, else the result. -/
def compHumValue (F : FloatFormat) (hp : Bool) (lastT lastH : Value) : Value :=
  if lastH = sentH then sentH else fitS32 (compResult F hp lastT lastH)

/-- COMP_HUM hp (43_humidity_compensation.md R164): pure, always OK. -/
def execCompHum (hp : Bool) (s : State) : Host.Outcome State Fault Refusal :=
  .next (respond .ok (compHumValue s.params.floatFormat hp s.lastT s.lastH) s)

end Sys2Proof.Machine
end

