-- ==== Sys2Proof/Machine/Measurement.lean ====
section
/-! DEFINITION. Measurement read and decode (42_measurement_decode.md): the scalings, the integer rounding to one
decimal, and READ_RESULT. All arithmetic is on the mathematical integers (00_scope.md R7). -/

namespace Sys2Proof.Machine

/-- The temperature ×100 of a code (42_measurement_decode.md R131); plain subtraction, no branch (R133). -/
def decodeT (code : Nat) : Int :=
  (((code >>> 2 : Nat) : Int) * 100).tdiv 32 - 5000

/-- The humidity ×100 of a code (42_measurement_decode.md R132). -/
def decodeH (code : Nat) : Int :=
  (((code >>> 4 : Nat) : Int) * 100).tdiv 16 - 2400

/-- R10(x): x/10 rounded half away from zero, in integers (42_measurement_decode.md R135). -/
def roundTenth (x : Int) : Int :=
  if 0 ≤ x then (x + 5).tdiv 10 else -((-x + 5).tdiv 10)

/-- The result of a decoded code: the ×100 value goes to LAST_T or LAST_H by the TEMP bit read back, and the 1-decimal
value is the response (42_measurement_decode.md R136, steps 3 to 5). -/
def storeResult (cfg : Byte) (code : Nat) (s : State) : State :=
  if tempBit cfg then
    respond .ok (sext32 (roundTenth (decodeT code))) (setLastT (BitVec.ofInt 32 (decodeT code)) s)
  else
    respond .ok (sext32 (roundTenth (decodeH code))) (setLastH (BitVec.ofInt 32 (decodeH code)) s)

/-- READ_RESULT's two reads, in order (42_measurement_decode.md R136): an error of either ends the command with
(BUS_ERROR, 12345) and stores nothing, and after an error of the first the second is not made. -/
def readResultCommand (s : State) : State :=
  let d := memRead2 .resultData regDataHigh s
  match d.1 with
  | none => respond .busError sentU d.2
  | some (b0, b1) =>
    let c := memRead1 .resultConfig regConfig d.2
    match c.1 with
    | none => respond .busError sentU c.2
    | some cfg => storeResult cfg (adcCode b0 b1) c.2

/-- READ_RESULT (42_measurement_decode.md R136). -/
def execReadResult (s : State) : Host.Outcome State Fault Refusal :=
  .next (readResultCommand s)

end Sys2Proof.Machine
end

