-- ==== Sys2Proof/Machine/RegisterAccess.lean ====
section
/-! DEFINITION. The register access commands (40_register_access.md): GET_ID, GET_STATUS, GET_CONFIG, SET_CONFIG. -/

namespace Sys2Proof.Machine

/-- A command that reads one byte register and returns it, or 0xFF with BUS_ERROR (40_register_access.md R80, R81, R82,
R84). -/
def byteReadCommand (k : ReadKind) (reg : RegAddr) (s : State) : State :=
  let r := memRead1 k reg s
  match r.1 with
  | some b => respond .ok (zext32 b) r.2
  | none => respond .busError errorByteValue r.2

/-- A command that writes one byte to CONFIG and reports 1 or 0 (40_register_access.md R83, 41_conversion_sequencing.md
R102, R103). -/
def configWriteCommand (v : Byte) (s : State) : State :=
  let w := memWrite regConfig v s
  respond (callStatus w.1) (boolValue w.1) w.2

/-- GET_ID (40_register_access.md R80). -/
def execGetId (s : State) : Host.Outcome State Fault Refusal :=
  .next (byteReadCommand .getId regId s)

/-- GET_STATUS (40_register_access.md R81): RDY is not interpreted. -/
def execGetStatus (s : State) : Host.Outcome State Fault Refusal :=
  .next (byteReadCommand .getStatus regStatus s)

/-- GET_CONFIG (40_register_access.md R82). -/
def execGetConfig (s : State) : Host.Outcome State Fault Refusal :=
  .next (byteReadCommand .getConfig regConfig s)

/-- SET_CONFIG cfg (40_register_access.md R83): all eight bits go out unchanged. -/
def execSetConfig (cfg : Byte) (s : State) : Host.Outcome State Fault Refusal :=
  .next (configWriteCommand cfg s)

end Sys2Proof.Machine
end

