-- ==== Sys2Proof/Machine/Sequencing.lean ====
section
/-! DEFINITION. The conversion sequencing commands (41_conversion_sequencing.md): START_TEMP, START_HUM, IS_CONVERTING,
WAIT_CONV. -/

namespace Sys2Proof.Machine

/-- START_TEMP (41_conversion_sequencing.md R102): whether a conversion is in progress is not checked. -/
def execStartTemp (fast heat : Bool) (s : State) : Host.Outcome State Fault Refusal :=
  .next (configWriteCommand (cfgStart .temp fast heat) s)

/-- START_HUM (41_conversion_sequencing.md R103). -/
def execStartHum (fast heat : Bool) (s : State) : Host.Outcome State Fault Refusal :=
  .next (configWriteCommand (cfgStart .hum fast heat) s)

/-- One read of STATUS and the ready test (41_conversion_sequencing.md R105). -/
def pollCommand (s : State) : State :=
  let r := memRead1 .isConverting regStatus s
  respond (callStatus r.1.isSome) (boolValue (busy s.params.rdyPolarity r.1)) r.2

/-- IS_CONVERTING (41_conversion_sequencing.md R105). -/
def execIsConverting (s : State) : Host.Outcome State Fault Refusal :=
  .next (pollCommand s)

/-- The polling loop (41_conversion_sequencing.md R106) with `left` polls left, after `count` busy polls and `count`
waits. -/
def waitLoop (left count : Nat) (s : State) : State :=
  match left with
  | 0 => respond .timeout (BitVec.ofNat 32 count) s
  | left + 1 =>
    let r := memRead1 .waitConv regStatus s
    if busy s.params.rdyPolarity r.1 then waitLoop left (count + 1) (sleepOne r.2)
    else respond .ok (BitVec.ofNat 32 count) r.2

/-- WAIT_CONV (41_conversion_sequencing.md R106). -/
def execWaitConv (s : State) : Host.Outcome State Fault Refusal :=
  .next (waitLoop timeoutUnits 0 s)

end Sys2Proof.Machine
end

