-- ==== Sys2Proof/Machine/Dispatch.lean ====
section
/-! DEFINITION. One arm for each command, one direct call of its meaning. -/

namespace Sys2Proof.Machine

def exec (i : Instr) (s : State) : Host.Outcome State Fault Refusal :=
  match i with
  | .getId => Sys2Proof.Machine.execGetId s
  | .getStatus => Sys2Proof.Machine.execGetStatus s
  | .getConfig => Sys2Proof.Machine.execGetConfig s
  | .setConfig cfg => Sys2Proof.Machine.execSetConfig cfg s
  | .startTemp fast heat => Sys2Proof.Machine.execStartTemp fast heat s
  | .startHum fast heat => Sys2Proof.Machine.execStartHum fast heat s
  | .isConverting => Sys2Proof.Machine.execIsConverting s
  | .waitConv => Sys2Proof.Machine.execWaitConv s
  | .readResult => Sys2Proof.Machine.execReadResult s
  | .compHum hp => Sys2Proof.Machine.execCompHum hp s
  | .getLastTemp => Sys2Proof.Machine.execGetLastTemp s
  | .getLastHum => Sys2Proof.Machine.execGetLastHum s

end Sys2Proof.Machine
end

