-- ==== Sys2Proof/Machine/Step.lean ====
section
/-! DEFINITION. One step: the command the host presents is decoded and run to its response; a word that decodes to no
command answers ILLEGAL_COMMAND; with no word presented the controller is idle. -/

namespace Sys2Proof.Machine

/-- One step (10_state.md R27, 30_encoding.md R64, 70_reset_and_hazards.md R233). Where the host's sequence has ended, "The
controller is idle between commands and does nothing unless a command arrives" (00_scope.md R5). -/
def step (s : State) : Host.Outcome State Fault Refusal :=
  match s.fetch with
  | none => .next s
  | some w =>
    match decode w with
    | some i => exec i s
    | none => .next (raiseIllegal s)

/-- `s` with the word `w` as the one the host presents next, so that the next step runs it (log entries 2 and 16). -/
def State.withFetchWord (s : State) (_nbits w : Nat) : State :=
  { s with program := placeWord s.program s.pc (BitVec.ofNat 16 w) }

end Sys2Proof.Machine
end

