-- ==== Sys2Proof/Machine/Assembly.lean ====
section
/-! DEFINITION. The command assembly language of 30_encoding.md R67 to R69, on lines held as lists of characters: the
pseudo-instructions' expansion, the assembler and the disassembler. It is notation for the host; no rule of the block
reads it. What R67 leaves open of the grammar is log entry 15. -/

namespace Sys2Proof.Machine

/-- One line of the language, read (30_encoding.md R67, R68). -/
inductive AsmLine where
  | command (i : Instr)
  | measureTemp (fast heat : Bool)
  | measureHum (fast heat : Bool)
  | word (w : CmdWord)
deriving DecidableEq, Repr

/-- The words of a line (30_encoding.md R68, R69). -/
def assembleLine (l : AsmLine) : List CmdWord :=
  match l with
  | .command i => [encode i]
  | .measureTemp fast heat => [encode (.startTemp fast heat), encode .waitConv, encode .readResult]
  | .measureHum fast heat => [encode (.startHum fast heat), encode .waitConv, encode .readResult]
  | .word w => [w]

/-- The line a word is spelled as: its command, or `.word` for an illegal word (30_encoding.md R69). -/
def disassembleWord (w : CmdWord) : AsmLine :=
  match decode w with
  | some i => .command i
  | none => .word w

/-! ### Printing -/

/-- The digits in upper case, each at the index that is its value. -/
def digitChars : List Char := "0123456789ABCDEF".toList

/-- A hexadecimal digit, 0 to 15. -/
def hexDigit (n : Nat) : Char := digitChars.getD n '0'

/-- The last `digits` hexadecimal digits of a number, the most significant first. -/
def hexDigits (digits n : Nat) : List Char :=
  match digits with
  | 0 => []
  | digits + 1 => hexDigits digits (n / 16) ++ [hexDigit (n % 16)]

/-- `0x` and the digits. -/
def hexSpelling (digits n : Nat) : List Char := "0x".toList ++ hexDigits digits n

/-- A flag's value: 0 or 1. -/
def bitSpelling (b : Bool) : List Char := if b then ['1'] else ['0']

/-- ` fast=F, heat=H`, both explicit (30_encoding.md R69). -/
def fhSpelling (fast heat : Bool) : List Char :=
  " fast=".toList ++ bitSpelling fast ++ ", heat=".toList ++ bitSpelling heat

/-- The operand part of a command's spelling, every operand explicit (30_encoding.md R69). -/
def operandSpelling (i : Instr) : List Char :=
  match i with
  | .getId => []
  | .getStatus => []
  | .getConfig => []
  | .setConfig cfg => ' ' :: hexSpelling 2 cfg.toNat
  | .startTemp fast heat => fhSpelling fast heat
  | .startHum fast heat => fhSpelling fast heat
  | .isConverting => []
  | .waitConv => []
  | .readResult => []
  | .compHum hp => " hp=".toList ++ bitSpelling hp
  | .getLastTemp => []
  | .getLastHum => []

/-- A line's text (30_encoding.md R67, R68, R69). -/
def printLine (l : AsmLine) : List Char :=
  match l with
  | .command i => i.mnemonic.toList ++ operandSpelling i
  | .measureTemp fast heat => "MEASURE_TEMP".toList ++ fhSpelling fast heat
  | .measureHum fast heat => "MEASURE_HUM".toList ++ fhSpelling fast heat
  | .word w => ".word ".toList ++ hexSpelling 4 w.toNat

/-- The disassembler: the text of a word (30_encoding.md R69). -/
def disassemble (w : CmdWord) : List Char := printLine (disassembleWord w)

/-! ### Reading -/

def isBlank (c : Char) : Bool := c == ' ' || c == '\t'

/-- The text without its comment, which starts with `;` (30_encoding.md R67). -/
def dropComment (cs : List Char) : List Char := cs.takeWhile (fun c => c != ';')

/-- The text without blanks at either end. -/
def trimBlanks (cs : List Char) : List Char :=
  ((cs.dropWhile isBlank).reverse.dropWhile isBlank).reverse

/-- The pieces between commas; a text without a comma is one piece. -/
def splitCommas (cs : List Char) : List (List Char) :=
  match cs with
  | [] => [[]]
  | c :: rest =>
    match splitCommas rest with
    | piece :: more => if c == ',' then [] :: piece :: more else (c :: piece) :: more
    | [] => [[c]]

/-- The operands of a line: none where nothing stands after the mnemonic. -/
def operandPieces (cs : List Char) : List (List Char) :=
  if trimBlanks cs = [] then [] else (splitCommas cs).map trimBlanks

/-- The value of a digit in base 10 or 16: its place among the digits, read in either case (log entry 15). -/
def digitValue (c : Char) : Option Nat := digitChars.findIdx? fun d => d == c.toUpper

/-- The number that digits of a base spell, after the value `acc` of the digits before them. -/
def readDigits (base acc : Nat) (cs : List Char) : Option Nat :=
  match cs with
  | [] => some acc
  | c :: rest =>
    match digitValue c with
    | some d => if d < base then readDigits base (acc * base + d) rest else none
    | none => none

/-- A number of at least one digit: decimal, or hexadecimal after `0x` (30_encoding.md R67). -/
def readNumber (cs : List Char) : Option Nat :=
  match cs with
  | '0' :: 'x' :: d :: rest => readDigits 16 0 (d :: rest)
  | ['0', 'x'] => none
  | d :: rest => readDigits 10 0 (d :: rest)
  | [] => none

/-- 0 or 1. -/
def readBit (cs : List Char) : Option Bool :=
  if cs = ['0'] then some false else if cs = ['1'] then some true else none

/-- The bit after a name and `=`. -/
def readNamedBit (name : List Char) (cs : List Char) : Option Bool :=
  if cs.take name.length = name then readBit (cs.drop name.length) else none

/-- The FH operands: `fast=F, heat=H`, either or both omitted, an omitted one 0 (30_encoding.md R67). -/
def readFh (ops : List (List Char)) : Option (Bool × Bool) :=
  match ops with
  | [] => some (false, false)
  | [x] =>
    match readNamedBit "fast=".toList x with
    | some f => some (f, false)
    | none =>
      match readNamedBit "heat=".toList x with
      | some h => some (false, h)
      | none => none
  | [x, y] =>
    match readNamedBit "fast=".toList x, readNamedBit "heat=".toList y with
    | some f, some h => some (f, h)
    | _, _ => none
  | _ => none

/-- The P operand: `hp=P`, an omitted one 0 (30_encoding.md R67). -/
def readHp (ops : List (List Char)) : Option Bool :=
  match ops with
  | [] => some false
  | [x] => readNamedBit "hp=".toList x
  | _ => none

/-- The I8 operand: an integer 0 … 255 (30_encoding.md R67). -/
def readImm (ops : List (List Char)) : Option Byte :=
  match ops with
  | [x] =>
    match readNumber x with
    | some n => if n < 256 then some (BitVec.ofNat 8 n) else none
    | none => none
  | _ => none

/-- The operand of `.word`: `0x` and four hexadecimal digits (30_encoding.md R67). -/
def readWord (ops : List (List Char)) : Option CmdWord :=
  match ops with
  | [['0', 'x', a, b, c, d]] => (readDigits 16 0 [a, b, c, d]).map (BitVec.ofNat 16)
  | _ => none

/-- A command without operands: any operand makes the line unreadable. -/
def readZ (i : Instr) (ops : List (List Char)) : Option AsmLine :=
  match ops with
  | [] => some (.command i)
  | _ => none

/-- A line's mnemonic with its operands (30_encoding.md R67, R68). -/
def readCommand (name : List Char) (ops : List (List Char)) : Option AsmLine :=
  if name = "GET_ID".toList then readZ .getId ops
  else if name = "GET_STATUS".toList then readZ .getStatus ops
  else if name = "GET_CONFIG".toList then readZ .getConfig ops
  else if name = "SET_CONFIG".toList then (readImm ops).map fun b => .command (.setConfig b)
  else if name = "START_TEMP".toList then (readFh ops).map fun p => .command (.startTemp p.1 p.2)
  else if name = "START_HUM".toList then (readFh ops).map fun p => .command (.startHum p.1 p.2)
  else if name = "IS_CONVERTING".toList then readZ .isConverting ops
  else if name = "WAIT_CONV".toList then readZ .waitConv ops
  else if name = "READ_RESULT".toList then readZ .readResult ops
  else if name = "COMP_HUM".toList then (readHp ops).map fun p => .command (.compHum p)
  else if name = "GET_LAST_TEMP".toList then readZ .getLastTemp ops
  else if name = "GET_LAST_HUM".toList then readZ .getLastHum ops
  else if name = "MEASURE_TEMP".toList then (readFh ops).map fun p => .measureTemp p.1 p.2
  else if name = "MEASURE_HUM".toList then (readFh ops).map fun p => .measureHum p.1 p.2
  else if name = ".word".toList then (readWord ops).map .word
  else none

/-- The words of one line of text: none for an unreadable line, no word for a line that holds only blanks or a comment
(30_encoding.md R67). -/
def assembleText (line : List Char) : Option (List CmdWord) :=
  let text := trimBlanks (dropComment line)
  if text = [] then some []
  else
    let name := text.takeWhile (fun c => !isBlank c)
    (readCommand name (operandPieces (text.drop name.length))).map assembleLine

/-- The words of a program, line by line; none if a line is unreadable (30_encoding.md R67). -/
def assembleProgram (lines : List (List Char)) : Option (List CmdWord) :=
  match lines with
  | [] => some []
  | line :: rest =>
    match assembleText line, assembleProgram rest with
    | some ws, some more => some (ws ++ more)
    | _, _ => none

end Sys2Proof.Machine
end

