-- ==== Sys2Proof/Machine/Phase.lean ====
section
/-! DEFINITION. The ghost phase of 41_conversion_sequencing.md R108, a function of the history of completed commands. It is
no part of State, and no rule of the block reads it (10_state.md R35; log entry 10). -/

namespace Sys2Proof.Machine

/-- The values of PHASE (41_conversion_sequencing.md R108). -/
inductive Phase where
  | idle
  | converting (q : Quantity)
  | ready (q : Quantity)
  | timedOut (q : Quantity)
  | unknown
deriving DecidableEq, Repr

/-- Completion was observed: READY(q) from CONVERTING(q) or TIMED_OUT(q), else no change (R108). -/
def observeReady (p : Phase) : Phase :=
  match p with
  | .converting q => .ready q
  | .timedOut q => .ready q
  | .idle => .idle
  | .ready q => .ready q
  | .unknown => .unknown

/-- A wait ended in TIMEOUT: TIMED_OUT(q) from CONVERTING(q), else no change (R108). -/
def observeTimeout (p : Phase) : Phase :=
  match p with
  | .converting q => .timedOut q
  | .timedOut q => .timedOut q
  | .idle => .idle
  | .ready q => .ready q
  | .unknown => .unknown

/-- A successful write of `cfg` by SET_CONFIG (R108). -/
def afterSetConfig (cfg : Byte) (p : Phase) : Phase :=
  if startBit cfg then .converting (quantityOf cfg) else if p = .idle then .idle else .unknown

/-- PHASE after a completed command with its response (the table of 41_conversion_sequencing.md R108). -/
def nextPhase (i : Instr) (r : Response) (p : Phase) : Phase :=
  match i with
  | .startTemp _ _ => if r = ⟨.ok, 1#32⟩ then .converting .temp else if r = ⟨.busError, 0#32⟩ then .unknown else p
  | .startHum _ _ => if r = ⟨.ok, 1#32⟩ then .converting .hum else if r = ⟨.busError, 0#32⟩ then .unknown else p
  | .setConfig cfg => if r = ⟨.ok, 1#32⟩ then afterSetConfig cfg p else if r = ⟨.busError, 0#32⟩ then .unknown else p
  | .isConverting => if r = ⟨.ok, 0#32⟩ then observeReady p else p
  | .waitConv => if r.status = .ok then observeReady p else if r = ⟨.timeout, 50#32⟩ then observeTimeout p else p
  | .readResult => if r.status = .ok then .idle else p
  | .getId => p
  | .getStatus => p
  | .getConfig => p
  | .compHum _ => p
  | .getLastTemp => p
  | .getLastHum => p

/-- PHASE after one entry of the history; an illegal word leaves it unchanged (60_exceptions.md R204). -/
def phaseAfter (p : Phase) (e : CmdWord × Response) : Phase :=
  match decode e.1 with
  | some i => nextPhase i e.2 p
  | none => p

/-- PHASE of a history: IDLE at reset, then one entry after another (R108). -/
def phaseOf (h : List (CmdWord × Response)) : Phase := h.foldl phaseAfter .idle

/-- PHASE of a state: of its history of completed commands. -/
def State.phase (s : State) : Phase := phaseOf s.history

/-- The last bus write on a trace: its byte, and whether it was Ok. Every write of the block goes to CONFIG (20_memory.md
R41). -/
def lastConfigWrite (tr : List BusEvent) : Option (Byte × Bool) :=
  tr.foldl (fun acc e => match e with
    | .write _ _ data ok => some (data, ok)
    | .read _ _ _ _ _ => acc
    | .sleep => acc) none

/-- The heater state the block's own writes leave in the device: HEAT of the last CONFIG write, where that write was Ok;
none where it failed or there was none, since the state is then not known (41_conversion_sequencing.md R107,
70_reset_and_hazards.md R236, R241). -/
def ghostHeater (tr : List BusEvent) : Option Bool :=
  match lastConfigWrite tr with
  | some (data, true) => some (heatBit data)
  | some (_, false) => none
  | none => none

end Sys2Proof.Machine
end

