-- ==== Sys2Proof/Safety.lean ====
section
/-! DEFINITION. The terms claims use: what a step leaves unchanged, the invariants of a run, and the host's protocol of
70_reset_and_hazards.md. Every step is safe in the sense of a fault (60_exceptions.md R200); what a host must keep to is
that a READ_RESULT is well-sequenced. -/

namespace Sys2Proof.Machine

/-! ### Frames -/

/-- The block's three registers, the parameters and the host's sequence are the same in both states. -/
def RegistersKept (s t : State) : Prop :=
  t.addr = s.addr ∧ t.lastT = s.lastT ∧ t.lastH = s.lastH ∧ t.params = s.params ∧ t.program = s.program

/-- `t` follows `s` by one response and one command of the sequence (10_state.md R27). -/
def RespondsWith (s t : State) (r : Response) : Prop :=
  t.responses = s.responses ++ [r] ∧ t.pc = s.pc + 1

/-! ### Invariants -/

/-- ADDR is DEV_ADDR (10_state.md R21). -/
def AddrFixed (s : State) : Prop := s.addr = s.params.devAddr

/-- LAST_T holds its sentinel or a value the decode can produce (10_state.md R24). -/
def LegalLastT (v : Value) : Prop :=
  v = sentT ∨ ∃ t : Nat, t ≤ 16383 ∧ v.toInt = ((t : Int) * 100).tdiv 32 - 5000

/-- LAST_H holds its sentinel or a value the decode can produce (10_state.md R24). -/
def LegalLastH (v : Value) : Prop :=
  v = sentH ∨ ∃ h : Nat, h ≤ 4095 ∧ v.toInt = ((h : Int) * 100).tdiv 16 - 2400

/-- Both stored readings are legal (10_state.md R24). -/
def LegalReadings (s : State) : Prop := LegalLastT s.lastT ∧ LegalLastH s.lastH

/-- Each completed command has delivered one response, and the index stays inside the host's sequence (10_state.md R27,
70_reset_and_hazards.md R233). -/
def ResponsesMatchPc (s : State) : Prop :=
  s.responses.length = s.pc ∧ s.pc ≤ s.program.length

/-- A call the block may make: to ADDR, one byte to CONFIG, or one byte from STATUS, CONFIG or ID, or the two bytes from
DATA_HIGH (20_memory.md R40, R41, R44, R45). -/
def LegalCall (addr : DevAddr) (e : BusEvent) : Prop :=
  match e with
  | .read dev reg len _ reply =>
    dev = addr ∧ (len = 1 ∧ (reg = 0x00#8 ∨ reg = 0x03#8 ∨ reg = 0x11#8) ∨ len = 2 ∧ reg = 0x01#8) ∧
      ∀ bytes, reply = some bytes → bytes.length = len
  | .write dev reg _ _ => dev = addr ∧ reg = 0x03#8
  | .sleep => True

/-- Every call on the trace is one the block may make. -/
def LegalTrace (s : State) : Prop := ∀ e ∈ s.trace, LegalCall s.addr e

/-- The last CONFIG write on the trace was Ok, with START set and TEMP for the quantity q (41_conversion_sequencing.md
R109). -/
def LastWriteStarted (s : State) (q : Quantity) : Prop :=
  ∃ cfg, lastConfigWrite s.trace = some (cfg, true) ∧ startBit cfg = true ∧ quantityOf cfg = q

/-- The ghost phase agrees with the writes on the trace: in CONVERTING(q), READY(q) and TIMED_OUT(q) the last CONFIG write
was a successful start of q (41_conversion_sequencing.md R108, R109). -/
def PhaseMatchesWrites (s : State) : Prop :=
  ∀ q, s.phase = .converting q ∨ s.phase = .ready q ∨ s.phase = .timedOut q → LastWriteStarted s q

/-! ### The polls of WAIT_CONV (41_conversion_sequencing.md R106) -/

/-- The event of one poll: one read of STATUS and its reply. -/
def pollEvent (s : State) (reply : Option Byte) : BusEvent :=
  .read s.addr 0x00#8 1 (Config.readHold .waitConv) (reply.map fun b => [b])

/-- The reply a poll made in `s` gets: the byte of the device's answer, none for Err. -/
def pollReply (s : State) : Option Byte :=
  replyByte (s.answerTo (.read s.addr 0x00#8 1 (Config.readHold .waitConv)))

/-- The state after polls with these replies, each followed by one `Sleep(1)`. -/
def afterBusyPolls (s : State) (replies : List (Option Byte)) : State :=
  { s with
    answers := s.answers.drop replies.length
    trace := s.trace ++ replies.flatMap fun r => [pollEvent s r, .sleep] }

/-! ### Floating point (00_scope.md R8) -/

/-- x is a finite value of the format, its exponent range unbounded above: a significand of p bits times a power of two
no less than the least subnormal (log entries 5 and 6). -/
def Representable (F : FloatFormat) (x : Rat) : Prop :=
  ∃ (m : Int) (e : Int), |m| < 2 ^ precision F ∧ leastExponent F ≤ e ∧ x = (m : Rat) * (2 : Rat) ^ e

/-! ### The host's protocol -/

/-- The READ_RESULT about to run is well-sequenced (41_conversion_sequencing.md R109). -/
def WellSequenced (s : State) (q : Quantity) : Prop := s.phase = .ready q

/-- The premise SingleOwner of hazard R234, as far as one command can use it: the CONFIG byte read back has the TEMP bit
of the block's own last CONFIG write, so no other agent has written it and the device returns what was written
(70_reset_and_hazards.md R234, 41_conversion_sequencing.md R109). -/
def SingleOwner (s : State) (readBack : Byte) : Prop :=
  ∀ cfg, lastConfigWrite s.trace = some (cfg, true) → tempBit readBack = tempBit cfg

/-- The premise NoConfigWriteBetween of hazard R234, on the events between a start and its read. -/
def NoConfigWriteBetween (events : List BusEvent) : Prop :=
  ∀ dev reg data ok, BusEvent.write dev reg data ok ∉ events

end Sys2Proof.Machine
end

