-- ==== Sys2Proof/Certificates/Slice0/Obligations.lean ====
section
/-! DEFINITION. The statements for the provers. Each docstring names the rule it formalises; OBLIGATIONS.json lists them in
this order. "Model's choice" marks a clause that rests on a log entry. -/

open Sys2Proof Sys2Proof.Machine

/-! ### Encoding (30_encoding.md) -/

/-- R62, R63, R69: no bit of an encoding is dropped; every `Instr` is well formed. -/
def Obligations.DecodeOfEncodeIsTheCommand : Prop :=
  ∀ i : Instr, i.wf = true ∧ decode (encode i) = some i

/-- R62, R64: a legal word has one meaning and is the only word of its command. -/
def Obligations.EncodeOfDecodeIsTheWord : Prop :=
  ∀ (w : CmdWord) (i : Instr), decode w = some i → encode i = w

/-- R64: the decoder, arm by arm, the count of legal words, and that a word it gives no command is run as
`raise IllegalCommand`. -/
def Obligations.DecoderFollowsThePseudocode : Prop :=
  (∀ w : CmdWord,
    let op := w.extractLsb' 8 8
    let opd := w.extractLsb' 0 8
    decode w =
      (if op = 0x01#8 then (if opd = 0x00#8 then some .getId else none)
       else if op = 0x02#8 then (if opd = 0x00#8 then some .getStatus else none)
       else if op = 0x03#8 then (if opd = 0x00#8 then some .getConfig else none)
       else if op = 0x04#8 then some (.setConfig opd)
       else if op = 0x10#8 then
         (if opd &&& 0xDD#8 = 0x00#8 then some (.startTemp (opd.getLsbD 5) (opd.getLsbD 1)) else none)
       else if op = 0x11#8 then
         (if opd &&& 0xDD#8 = 0x00#8 then some (.startHum (opd.getLsbD 5) (opd.getLsbD 1)) else none)
       else if op = 0x12#8 then (if opd = 0x00#8 then some .isConverting else none)
       else if op = 0x13#8 then (if opd = 0x00#8 then some .waitConv else none)
       else if op = 0x14#8 then (if opd = 0x00#8 then some .readResult else none)
       else if op = 0x20#8 then (if opd &&& 0xFE#8 = 0x00#8 then some (.compHum (opd.getLsbD 0)) else none)
       else if op = 0x21#8 then (if opd = 0x00#8 then some .getLastTemp else none)
       else if op = 0x22#8 then (if opd = 0x00#8 then some .getLastHum else none)
       else none)) ∧
  ((List.range 65536).filter fun w => (decode (BitVec.ofNat 16 w)).isSome).length = 274 ∧
  ((List.range 65536).filter fun w => (decode (BitVec.ofNat 16 w)).isNone).length = 65262 ∧
  (∀ (s : State) (w : CmdWord), s.program[s.pc]? = some w → decode w = none → step s = .next (raiseIllegal s))

/-- R62: a word decodes exactly when it selects a row of the opcode map, to that row's command, and it selects at most
one row. -/
def Obligations.DecoderSelectsTheMatchingRow : Prop :=
  ∀ w : CmdWord,
    (opcodeRows.filter (selectsRow w)).length ≤ 1 ∧
    (decode w).map Instr.mnemonic = (opcodeRows.find? (selectsRow w)).map fun row => row.1

/-- R60, R64: one word of each family, written out from the encoding table, decodes to the command it stands for. -/
def Obligations.WrittenOutWordsDecode : Prop :=
  decode 0b0000000100000000#16 = some .getId ∧
  decode 0b0000010011111111#16 = some (.setConfig 0xFF#8) ∧
  decode 0b0001000000100000#16 = some (.startTemp true false) ∧
  decode 0b0001000100000010#16 = some (.startHum false true) ∧
  decode 0b0001001100000000#16 = some .waitConv ∧
  decode 0b0001010000000000#16 = some .readResult ∧
  decode 0b0010000000000001#16 = some (.compHum true) ∧
  decode 0b0010001000000000#16 = some .getLastHum ∧
  decode 0b0001000000000001#16 = none

/-- R60: where a port serialises the word, the OP byte goes first. -/
def Obligations.SerialisedWordHasTheOpByteFirst : Prop :=
  ∀ w : CmdWord,
    serialiseWord w = [w.extractLsb' 8 8, w.extractLsb' 0 8] ∧ wordOfBytes (serialiseWord w) = some w

/-- R67 to R69: the assembler reads every word's disassembled text back as that word, and the text of the two
pseudo-instructions as their words. Model's choice: the grammar details of log entry 15. -/
def Obligations.AssemblerReadsTheDisassembly : Prop :=
  (∀ w : CmdWord, assembleText (disassemble w) = some [w]) ∧
  (∀ f h : Bool, assembleText (printLine (.measureTemp f h)) = some (assembleLine (.measureTemp f h)) ∧
    assembleText (printLine (.measureHum f h)) = some (assembleLine (.measureHum f h)))

/-- R68: the two pseudo-instructions expand to the three words of their commands, whatever the wait will answer. -/
def Obligations.MeasurePseudoInstructionsExpand : Prop :=
  ∀ f h : Bool,
    let fh : CmdWord := (if f then 1#16 <<< 5 else 0#16) ||| (if h then 1#16 <<< 1 else 0#16)
    assembleLine (.measureTemp f h) = [0x1000#16 ||| fh, 0x1300#16, 0x1400#16] ∧
    assembleLine (.measureTemp f h) = [encode (.startTemp f h), encode .waitConv, encode .readResult] ∧
    assembleLine (.measureHum f h) = [0x1100#16 ||| fh, 0x1300#16, 0x1400#16] ∧
    assembleLine (.measureHum f h) = [encode (.startHum f h), encode .waitConv, encode .readResult]

/-! ### The machine's step (10_state.md, 60_exceptions.md, 70_reset_and_hazards.md) -/

/-- R27, R64, R5: where the word at pc decodes, the step is that command's meaning (which itself ends with pc + 1); where no
word is presented, the controller does nothing. `withFetchWord` places a word where the step fetches it. Model's
choice: the idle step and `withFetchWord` (log entries 2 and 16). -/
def Obligations.StepRunsTheDecodedCommand : Prop :=
  (∀ (s : State) (w : CmdWord) (i : Instr),
    s.program[s.pc]? = some w → decode w = some i → step s = exec i s) ∧
  (∀ s : State, s.program[s.pc]? = none → step s = .next s) ∧
  (∀ (s : State) (i : Instr),
    step (s.withFetchWord 16 (encode i).toNat) = exec i (s.withFetchWord 16 (encode i).toNat))

/-- R200: no command and no word ends in a fault or a refusal. -/
def Obligations.EveryStepAnswersANextState : Prop :=
  (∀ (i : Instr) (s : State), ∃ t, exec i s = .next t) ∧ (∀ s : State, ∃ t, step s = .next t)

/-- R65, R204: which words are illegal, and the whole effect of running one. -/
def Obligations.IllegalWordAnswersIllegalCommand : Prop :=
  (∀ w : CmdWord,
    let op := w.extractLsb' 8 8
    let opd := w.extractLsb' 0 8
    decode w = none ↔
      op ∉ [0x01#8, 0x02#8, 0x03#8, 0x04#8, 0x10#8, 0x11#8, 0x12#8, 0x13#8, 0x14#8, 0x20#8, 0x21#8, 0x22#8] ∨
      (op ∈ [0x01#8, 0x02#8, 0x03#8, 0x12#8, 0x13#8, 0x14#8, 0x21#8, 0x22#8] ∧ opd ≠ 0x00#8) ∨
      (op ∈ [0x10#8, 0x11#8] ∧ opd &&& 0xDD#8 ≠ 0x00#8) ∨ (op = 0x20#8 ∧ opd &&& 0xFE#8 ≠ 0x00#8)) ∧
  decode 0x0000#16 = none ∧
  (∀ (s : State) (w : CmdWord), s.program[s.pc]? = some w → decode w = none →
    step s = .next { s with responses := s.responses ++ [⟨.illegalCommand, 0#32⟩], pc := s.pc + 1 }) ∧
  (∀ (s t : State) (w : CmdWord), ResponsesMatchPc s → s.program[s.pc]? = some w → decode w = none →
    step s = .next t → t.phase = s.phase)

/-- R27: every presented word, legal or not, advances pc by one; at the sequence's end nothing moves. -/
def Obligations.EveryPresentedWordAdvancesPcByOne : Prop :=
  ∀ s t : State, step s = .next t →
    (s.pc < s.program.length → t.pc = s.pc + 1 ∧ t.program = s.program) ∧ (s.program.length ≤ s.pc → t = s)

/-- R230: the block's registers after reset, for every value of the parameters and for their defaults; no response exists
and no bus event was made. -/
def Obligations.ResetLeavesTheStatedValues : Prop :=
  (∀ p : Params,
    (State.resetWith p).addr = p.devAddr ∧ (State.resetWith p).lastT = 55555#32 ∧ (State.resetWith p).lastH = 1111#32 ∧
    (State.resetWith p).pc = 0 ∧ (State.resetWith p).params = p ∧ (State.resetWith p).phase = .idle ∧
    (State.resetWith p).lastResponse = none ∧ (State.resetWith p).trace = []) ∧
  State.reset = State.resetWith ⟨0x40#7, .readyHigh, .binary64⟩ ∧ State.reset.addr = 0x40#7

/-- R231, R236: a reset at any time sets the block's registers, makes no bus call and no sleep, and leaves the device and
its heater as they are. Model's choice: the host's next sequence is given with the reset (log entry 13). -/
def Obligations.ResetTouchesNoDevice : Prop :=
  ∀ (s : State) (ws : List CmdWord),
    s.applyReset ws = { s with
      addr := s.params.devAddr, lastT := 55555#32, lastH := 1111#32, pc := 0, program := ws, responses := [] } ∧
    (s.applyReset ws).phase = .idle ∧ ghostHeater (s.applyReset ws).trace = ghostHeater s.trace

/-- R46: the draw is free: whatever the state and the call, the device may answer anything. Model's choice: the answers
listed in State carry the draws (log entry 1). -/
def Obligations.TheDeviceMayAnswerAnything : Prop :=
  ∀ (s : State) (c : BusCall) (a : Answer), ∃ as, ({ s with answers := as } : State).answerTo c = a

/-! ### Register access (40_register_access.md) -/

/-- R80: GET_ID's word, its one read of ID, its response on Ok and on Err, and that nothing else changes. -/
def Obligations.GetIdReadsTheIdRegister : Prop :=
  encode .getId = 0x0100#16 ∧
  ∀ s : State,
    (∀ b0 b1, s.answerTo (.read s.addr 0x11#8 1 (Config.readHold .getId)) = .ok b0 b1 →
      exec .getId s = .next { s with
        answers := s.answers.tail
        trace := s.trace ++ [.read s.addr 0x11#8 1 (Config.readHold .getId) (some [b0])]
        responses := s.responses ++ [⟨.ok, b0.setWidth 32⟩]
        pc := s.pc + 1 }) ∧
    (s.answerTo (.read s.addr 0x11#8 1 (Config.readHold .getId)) = .err →
      exec .getId s = .next { s with
        answers := s.answers.tail
        trace := s.trace ++ [.read s.addr 0x11#8 1 (Config.readHold .getId) none]
        responses := s.responses ++ [⟨.busError, 0x000000FF#32⟩]
        pc := s.pc + 1 })

/-- R81: GET_STATUS's word, its one read of STATUS, its response on Ok and on Err, and that nothing else changes. -/
def Obligations.GetStatusReadsTheStatusRegister : Prop :=
  encode .getStatus = 0x0200#16 ∧
  ∀ s : State,
    (∀ b0 b1, s.answerTo (.read s.addr 0x00#8 1 (Config.readHold .getStatus)) = .ok b0 b1 →
      exec .getStatus s = .next { s with
        answers := s.answers.tail
        trace := s.trace ++ [.read s.addr 0x00#8 1 (Config.readHold .getStatus) (some [b0])]
        responses := s.responses ++ [⟨.ok, b0.setWidth 32⟩]
        pc := s.pc + 1 }) ∧
    (s.answerTo (.read s.addr 0x00#8 1 (Config.readHold .getStatus)) = .err →
      exec .getStatus s = .next { s with
        answers := s.answers.tail
        trace := s.trace ++ [.read s.addr 0x00#8 1 (Config.readHold .getStatus) none]
        responses := s.responses ++ [⟨.busError, 0x000000FF#32⟩]
        pc := s.pc + 1 })

/-- R82: GET_CONFIG's word, its one read of CONFIG, its response on Ok and on Err, and that nothing else changes. -/
def Obligations.GetConfigReadsTheConfigRegister : Prop :=
  encode .getConfig = 0x0300#16 ∧
  ∀ s : State,
    (∀ b0 b1, s.answerTo (.read s.addr 0x03#8 1 (Config.readHold .getConfig)) = .ok b0 b1 →
      exec .getConfig s = .next { s with
        answers := s.answers.tail
        trace := s.trace ++ [.read s.addr 0x03#8 1 (Config.readHold .getConfig) (some [b0])]
        responses := s.responses ++ [⟨.ok, b0.setWidth 32⟩]
        pc := s.pc + 1 }) ∧
    (s.answerTo (.read s.addr 0x03#8 1 (Config.readHold .getConfig)) = .err →
      exec .getConfig s = .next { s with
        answers := s.answers.tail
        trace := s.trace ++ [.read s.addr 0x03#8 1 (Config.readHold .getConfig) none]
        responses := s.responses ++ [⟨.busError, 0x000000FF#32⟩]
        pc := s.pc + 1 })

/-- R83: SET_CONFIG writes its byte verbatim to CONFIG and reports 1 or 0; a failed write makes the ghost phase UNKNOWN,
a successful one with START set makes it CONVERTING of the quantity of its TEMP bit. -/
def Obligations.SetConfigWritesTheByteVerbatim : Prop :=
  ∀ cfg : Byte,
    encode (.setConfig cfg) = 0x0400#16 ||| cfg.setWidth 16 ∧
    (∀ p, nextPhase (.setConfig cfg) ⟨.busError, 0#32⟩ p = .unknown) ∧
    (∀ p, cfg.getLsbD 0 = true →
      nextPhase (.setConfig cfg) ⟨.ok, 1#32⟩ p = .converting (if cfg.getLsbD 4 then .temp else .hum)) ∧
    ∀ s : State,
      (∀ b0 b1, s.answerTo (.write s.addr 0x03#8 cfg) = .ok b0 b1 →
        exec (.setConfig cfg) s = .next { s with
          answers := s.answers.tail
          trace := s.trace ++ [.write s.addr 0x03#8 cfg true]
          responses := s.responses ++ [⟨.ok, 1#32⟩]
          pc := s.pc + 1 }) ∧
      (s.answerTo (.write s.addr 0x03#8 cfg) = .err →
        exec (.setConfig cfg) s = .next { s with
          answers := s.answers.tail
          trace := s.trace ++ [.write s.addr 0x03#8 cfg false]
          responses := s.responses ++ [⟨.busError, 0#32⟩]
          pc := s.pc + 1 })

/-! ### Conversion sequencing (41_conversion_sequencing.md) -/

/-- R101: the eight configuration bytes of a start, and their bits 2, 3, 6 and 7. -/
def Obligations.StartByteIsOneOfEight : Prop :=
  cfgStart .temp false false = 0x11#8 ∧ cfgStart .temp false true = 0x13#8 ∧
  cfgStart .temp true false = 0x31#8 ∧ cfgStart .temp true true = 0x33#8 ∧
  cfgStart .hum false false = 0x01#8 ∧ cfgStart .hum false true = 0x03#8 ∧
  cfgStart .hum true false = 0x21#8 ∧ cfgStart .hum true true = 0x23#8 ∧
  ∀ q fast heat, cfgStart q fast heat &&& 0xCC#8 = 0x00#8

/-- R102, with the byte of R101 written out: START_TEMP's word, its one write, its response, its ghost phase. -/
def Obligations.StartTempWritesItsConfigByte : Prop :=
  ∀ fast heat : Bool,
    let byte : Byte := 0x11#8 ||| (if fast then 0x20#8 else 0x00#8) ||| (if heat then 0x02#8 else 0x00#8)
    encode (.startTemp fast heat) =
      0x1000#16 ||| (if fast then 1#16 <<< 5 else 0#16) ||| (if heat then 1#16 <<< 1 else 0#16) ∧
    (∀ p, nextPhase (.startTemp fast heat) ⟨.ok, 1#32⟩ p = .converting .temp ∧
      nextPhase (.startTemp fast heat) ⟨.busError, 0#32⟩ p = .unknown) ∧
    ∀ s : State,
      (∀ b0 b1, s.answerTo (.write s.addr 0x03#8 byte) = .ok b0 b1 →
        exec (.startTemp fast heat) s = .next { s with
          answers := s.answers.tail
          trace := s.trace ++ [.write s.addr 0x03#8 byte true]
          responses := s.responses ++ [⟨.ok, 1#32⟩]
          pc := s.pc + 1 }) ∧
      (s.answerTo (.write s.addr 0x03#8 byte) = .err →
        exec (.startTemp fast heat) s = .next { s with
          answers := s.answers.tail
          trace := s.trace ++ [.write s.addr 0x03#8 byte false]
          responses := s.responses ++ [⟨.busError, 0#32⟩]
          pc := s.pc + 1 })

/-- R103, with the byte of R101 written out: START_HUM's word, its one write, its response, its ghost phase. -/
def Obligations.StartHumWritesItsConfigByte : Prop :=
  ∀ fast heat : Bool,
    let byte : Byte := 0x01#8 ||| (if fast then 0x20#8 else 0x00#8) ||| (if heat then 0x02#8 else 0x00#8)
    encode (.startHum fast heat) =
      0x1100#16 ||| (if fast then 1#16 <<< 5 else 0#16) ||| (if heat then 1#16 <<< 1 else 0#16) ∧
    (∀ p, nextPhase (.startHum fast heat) ⟨.ok, 1#32⟩ p = .converting .hum ∧
      nextPhase (.startHum fast heat) ⟨.busError, 0#32⟩ p = .unknown) ∧
    ∀ s : State,
      (∀ b0 b1, s.answerTo (.write s.addr 0x03#8 byte) = .ok b0 b1 →
        exec (.startHum fast heat) s = .next { s with
          answers := s.answers.tail
          trace := s.trace ++ [.write s.addr 0x03#8 byte true]
          responses := s.responses ++ [⟨.ok, 1#32⟩]
          pc := s.pc + 1 }) ∧
      (s.answerTo (.write s.addr 0x03#8 byte) = .err →
        exec (.startHum fast heat) s = .next { s with
          answers := s.answers.tail
          trace := s.trace ++ [.write s.addr 0x03#8 byte false]
          responses := s.responses ++ [⟨.busError, 0#32⟩]
          pc := s.pc + 1 })

/-- R104: the ready test reads bit 0 alone, by the polarity, and a failed read is busy. -/
def Obligations.ReadyTestReadsBitZeroAndFailsSafe : Prop :=
  (∀ b : Byte, busy .readyHigh (some b) = true ↔ b &&& 0x01#8 = 0x00#8) ∧
  (∀ b : Byte, busy .readyLow (some b) = true ↔ b &&& 0x01#8 = 0x01#8) ∧
  (∀ pol, busy pol none = true)

/-- R105: IS_CONVERTING's word, its one read of STATUS, its response by RDY and the polarity, and that nothing else
changes; a failed read is (BUS_ERROR, 1). -/
def Obligations.IsConvertingReportsTheReadyTest : Prop :=
  encode .isConverting = 0x1200#16 ∧
  (∀ p q, p = .converting q ∨ p = .timedOut q → nextPhase .isConverting ⟨.ok, 0#32⟩ p = .ready q) ∧
  ∀ s : State,
    (∀ b0 b1, s.answerTo (.read s.addr 0x00#8 1 (Config.readHold .isConverting)) = .ok b0 b1 →
      exec .isConverting s = .next { s with
        answers := s.answers.tail
        trace := s.trace ++ [.read s.addr 0x00#8 1 (Config.readHold .isConverting) (some [b0])]
        responses := s.responses ++ [⟨.ok,
          match s.params.rdyPolarity with
          | .readyHigh => if b0.getLsbD 0 = false then 1#32 else 0#32
          | .readyLow => if b0.getLsbD 0 = true then 1#32 else 0#32⟩]
        pc := s.pc + 1 }) ∧
    (s.answerTo (.read s.addr 0x00#8 1 (Config.readHold .isConverting)) = .err →
      exec .isConverting s = .next { s with
        answers := s.answers.tail
        trace := s.trace ++ [.read s.addr 0x00#8 1 (Config.readHold .isConverting) none]
        responses := s.responses ++ [⟨.busError, 1#32⟩]
        pc := s.pc + 1 })

/-- R106: WAIT_CONV in every state. `busies` are the replies of its busy polls, each the device's reply at that moment. It
ends at the first ready poll with (OK, count) after count + 1 reads and count sleeps, or with (TIMEOUT, 50) after 50
reads and 50 sleeps; nothing else changes. -/
def Obligations.WaitConvPollsUntilReadyOrFiftyBusy : Prop :=
  encode .waitConv = 0x1300#16 ∧
  (∀ p q k, p = .converting q ∨ p = .timedOut q → nextPhase .waitConv ⟨.ok, k⟩ p = .ready q) ∧
  (∀ q, nextPhase .waitConv ⟨.timeout, 50#32⟩ (.converting q) = .timedOut q) ∧
  ∀ s : State, ∃ busies : List (Option Byte),
    (∀ j r, busies[j]? = some r →
      r = pollReply (afterBusyPolls s (busies.take j)) ∧ busy s.params.rdyPolarity r = true) ∧
    let u := afterBusyPolls s busies
    ((busies.length < 50 ∧ busy s.params.rdyPolarity (pollReply u) = false ∧
        exec .waitConv s = .next { u with
          answers := u.answers.tail
          trace := u.trace ++ [pollEvent s (pollReply u)]
          responses := s.responses ++ [⟨.ok, BitVec.ofNat 32 busies.length⟩]
          pc := s.pc + 1 }) ∨
      (busies.length = 50 ∧
        exec .waitConv s = .next { u with
          responses := s.responses ++ [⟨.timeout, 50#32⟩]
          pc := s.pc + 1 }))

/-- R203: only WAIT_CONV reports TIMEOUT, with VALUE 50, after 50 reads of STATUS and 50 sleeps, every reply busy; no
register changes, and a READ_RESULT after it executes. -/
def Obligations.TimeoutOnlyAfterFiftyBusyPolls : Prop :=
  ∀ (i : Instr) (s t : State) (v : Value), exec i s = .next t → RespondsWith s t ⟨.timeout, v⟩ →
    i = .waitConv ∧ v = 50#32 ∧ RegistersKept s t ∧ (∃ u, exec .readResult t = .next u) ∧
    ∃ replies : List (Option Byte), replies.length = 50 ∧ (∀ r ∈ replies, busy s.params.rdyPolarity r = true) ∧
      t.trace = s.trace ++ replies.flatMap fun r => [pollEvent s r, .sleep]

/-- R107, R236: the heater state the block's writes leave: a CONFIG write sets it to its byte's HEAT bit if Ok (and leaves
it unknown if not, R241), and every other command keeps it. -/
def Obligations.HeaterChangesOnlyByConfigWrites : Prop :=
  ∀ (i : Instr) (s t : State), exec i s = .next t →
    match i with
    | .setConfig cfg =>
      ∃ ok, t.trace = s.trace ++ [.write s.addr 0x03#8 cfg ok] ∧
        ghostHeater t.trace = if ok then some (cfg.getLsbD 1) else none
    | .startTemp fast heat =>
      ∃ ok, t.trace = s.trace ++ [.write s.addr 0x03#8 (cfgStart .temp fast heat) ok] ∧
        ghostHeater t.trace = if ok then some heat else none
    | .startHum fast heat =>
      ∃ ok, t.trace = s.trace ++ [.write s.addr 0x03#8 (cfgStart .hum fast heat) ok] ∧
        ghostHeater t.trace = if ok then some heat else none
    | _ => ghostHeater t.trace = ghostHeater s.trace

/-- R108: the ghost phase at reset, after an illegal word, and after every completed command by the rule's table. The
premise on the responses rules out states that no run reaches. -/
def Obligations.PhaseFollowsTheTable : Prop :=
  (∀ p : Params, (State.resetWith p).phase = .idle) ∧
  (∀ (s t : State) (w : CmdWord), ResponsesMatchPc s → s.program[s.pc]? = some w → decode w = none → step s = .next t →
    t.phase = s.phase) ∧
  ∀ (s t : State) (w : CmdWord) (i : Instr),
    ResponsesMatchPc s → s.program[s.pc]? = some w → decode w = some i → step s = .next t →
    ∃ r : Response, RespondsWith s t r ∧
      (∀ f h, i = .startTemp f h → r = ⟨.ok, 1#32⟩ → t.phase = .converting .temp) ∧
      (∀ f h, i = .startHum f h → r = ⟨.ok, 1#32⟩ → t.phase = .converting .hum) ∧
      (∀ cfg, i = .setConfig cfg → r = ⟨.ok, 1#32⟩ → cfg.getLsbD 0 = true →
        t.phase = .converting (if cfg.getLsbD 4 then .temp else .hum)) ∧
      (∀ cfg, i = .setConfig cfg → r = ⟨.ok, 1#32⟩ → cfg.getLsbD 0 = false →
        t.phase = if s.phase = .idle then .idle else .unknown) ∧
      ((∃ cfg, i = .setConfig cfg) ∨ (∃ f h, i = .startTemp f h) ∨ (∃ f h, i = .startHum f h) →
        r = ⟨.busError, 0#32⟩ → t.phase = .unknown) ∧
      (∀ q, (i = .isConverting ∧ r = ⟨.ok, 0#32⟩ ∨ i = .waitConv ∧ r.status = .ok) →
        s.phase = .converting q ∨ s.phase = .timedOut q → t.phase = .ready q) ∧
      (∀ q, i = .waitConv → r = ⟨.timeout, 50#32⟩ → s.phase = .converting q → t.phase = .timedOut q) ∧
      (i = .readResult → r.status = .ok → t.phase = .idle) ∧
      ((i = .isConverting ∨ i = .waitConv) → (∀ q, s.phase ≠ .converting q ∧ s.phase ≠ .timedOut q) →
        t.phase = s.phase) ∧
      (i = .isConverting → r ≠ ⟨.ok, 0#32⟩ → t.phase = s.phase) ∧
      (i = .waitConv → r.status ≠ .ok → (∀ q, s.phase ≠ .converting q) → t.phase = s.phase) ∧
      (i = .readResult → r.status ≠ .ok → t.phase = s.phase) ∧
      (i ∈ [.getId, .getStatus, .getConfig, .compHum true, .compHum false, .getLastTemp, .getLastHum] →
        t.phase = s.phase)

/-! ### Measurement read and decode (42_measurement_decode.md) -/

/-- R136, with R130 to R132 and R135 written out: READ_RESULT's word, its reads in order, what it stores and answers on
each path and on each error, and that nothing else changes. -/
def Obligations.ReadResultDecodesByTheTempBitReadBack : Prop :=
  encode .readResult = 0x1400#16 ∧
  (∀ v p, nextPhase .readResult ⟨.ok, v⟩ p = .idle) ∧
  ∀ s : State,
    let dataCall : BusCall := .read s.addr 0x01#8 2 (Config.readHold .resultData)
    let configCall : BusCall := .read s.addr 0x03#8 1 (Config.readHold .resultConfig)
    (s.answerTo dataCall = .err →
      exec .readResult s = .next { s with
        answers := s.answers.tail
        trace := s.trace ++ [.read s.addr 0x01#8 2 (Config.readHold .resultData) none]
        responses := s.responses ++ [⟨.busError, 12345#32⟩]
        pc := s.pc + 1 }) ∧
    (∀ b0 b1, s.answerTo dataCall = .ok b0 b1 →
      let s1 : State := { s with
        answers := s.answers.tail
        trace := s.trace ++ [.read s.addr 0x01#8 2 (Config.readHold .resultData) (some [b0, b1])] }
      let tenth := fun x : Int => if x ≥ 0 then (x + 5) / 10 else -((-x + 5) / 10)
      (s1.answerTo configCall = .err →
        exec .readResult s = .next { s1 with
          answers := s1.answers.tail
          trace := s1.trace ++ [.read s.addr 0x03#8 1 (Config.readHold .resultConfig) none]
          responses := s.responses ++ [⟨.busError, 12345#32⟩]
          pc := s.pc + 1 }) ∧
      (∀ cfg c1, s1.answerTo configCall = .ok cfg c1 → cfg.getLsbD 4 = true →
        let raw : Int := (((b0.toNat * 256 + b1.toNat) / 4 * 100 / 32 : Nat) : Int) - 5000
        exec .readResult s = .next { s1 with
          answers := s1.answers.tail
          trace := s1.trace ++ [.read s.addr 0x03#8 1 (Config.readHold .resultConfig) (some [cfg])]
          lastT := BitVec.ofInt 32 raw
          responses := s.responses ++ [⟨.ok, BitVec.ofInt 32 (tenth raw)⟩]
          pc := s.pc + 1 }) ∧
      (∀ cfg c1, s1.answerTo configCall = .ok cfg c1 → cfg.getLsbD 4 = false →
        let raw : Int := (((b0.toNat * 256 + b1.toNat) / 16 * 100 / 16 : Nat) : Int) - 2400
        exec .readResult s = .next { s1 with
          answers := s1.answers.tail
          trace := s1.trace ++ [.read s.addr 0x03#8 1 (Config.readHold .resultConfig) (some [cfg])]
          lastH := BitVec.ofInt 32 raw
          responses := s.responses ++ [⟨.ok, BitVec.ofInt 32 (tenth raw)⟩]
          pc := s.pc + 1 }))

/-- R138 and the boundary of R133, which the spec derives from R131, R132 and R135: the ranges of the decode, which codes
give distinct values, and where the sign changes. -/
def Obligations.DecodeRangesAndSignBoundaries : Prop :=
  (∀ c, c < 65536 → -5000 ≤ decodeT c ∧ decodeT c ≤ 46196 ∧
    -500 ≤ roundTenth (decodeT c) ∧ roundTenth (decodeT c) ≤ 4620 ∧ (decodeT c < 0 ↔ c ≤ 0x18FF)) ∧
  (∀ c, c < 65536 → -2400 ≤ decodeH c ∧ decodeH c ≤ 23193 ∧
    -240 ≤ roundTenth (decodeH c) ∧ roundTenth (decodeH c) ≤ 2319 ∧ (decodeH c < 0 ↔ c ≤ 0x17FF)) ∧
  (∀ c d, c < 65536 → d < 65536 → (decodeT c = decodeT d ↔ c / 4 = d / 4)) ∧
  (∀ c d, c < 65536 → d < 65536 → (decodeH c = decodeH d ↔ c / 16 = d / 16)) ∧
  (∀ c, c < 65536 → decodeT c + 5000 ≠ 4999)

/-- R24, which the spec derives from R131, R132 and R136: no value the decode can produce is its sentinel. -/
def Obligations.NoDecodedValueIsItsSentinel : Prop :=
  (∀ c, c < 65536 → BitVec.ofInt 32 (decodeT c) ≠ 55555#32) ∧
  (∀ c, c < 65536 → BitVec.ofInt 32 (decodeH c) ≠ 1111#32)

/-- R135, which the spec derives from R131, R132 and R134: on every code, both paths and both formats, the integer form
equals the floating-point rounding helper. -/
def Obligations.IntegerRoundingEqualsTheRoundingHelper : Prop :=
  ∀ (F : FloatFormat) (c : Nat), c < 65536 →
    roundHelper F (fl F (toF F (decodeT c) / toFLit F (mkRat 10 1))) = roundTenth (decodeT c) ∧
    roundHelper F (fl F (toF F (decodeH c) / toFLit F (mkRat 10 1))) = roundTenth (decodeH c)

/-- R134: the rounding helper takes every half below 2^20 in magnitude away from zero and every such integer to itself, and
the source's five examples. Model's choice: the meaning of IEEE 754 (log entry 6). -/
def Obligations.RoundingHelperRoundsHalvesAwayFromZero : Prop :=
  ∀ F : FloatFormat,
    (∀ k : Nat, k < 2 ^ 20 →
      roundHelper F (mkRat (2 * k + 1) 2) = k + 1 ∧ roundHelper F (-mkRat (2 * k + 1) 2) = -(k + 1) ∧
      roundHelper F (mkRat k 1) = k ∧ roundHelper F (-mkRat k 1) = -k) ∧
    roundHelper F (toFLit F (mkRat 1 2)) = 1 ∧ roundHelper F (toFLit F (mkRat (-1) 2)) = -1 ∧
    roundHelper F (toFLit F (mkRat 24 10)) = 2 ∧ roundHelper F (toFLit F (mkRat 25 10)) = 3 ∧
    roundHelper F (toFLit F (mkRat (-25) 10)) = -3

/-- R22, R23, R137: a stored reading changes only by a READ_RESULT whose CONFIG read-back succeeded, LAST_T where bit 4 of
the byte read is set and LAST_H where it is clear; with BUS_ERROR neither changes. -/
def Obligations.ReadingsChangeOnlyByReadResult : Prop :=
  ∀ s t : State, step s = .next t →
    (t.lastT ≠ s.lastT ∨ t.lastH ≠ s.lastH →
      (s.program[s.pc]?).bind decode = some .readResult ∧
      ∃ cfg, t.trace.getLast? = some (.read s.addr 0x03#8 1 (Config.readHold .resultConfig) (some [cfg])) ∧
        (cfg.getLsbD 4 = true → t.lastH = s.lastH) ∧ (cfg.getLsbD 4 = false → t.lastT = s.lastT) ∧
        ∃ v, t.responses = s.responses ++ [⟨.ok, v⟩]) ∧
    (∀ v, t.responses = s.responses ++ [⟨.busError, v⟩] → t.lastT = s.lastT ∧ t.lastH = s.lastH)

/-! ### Humidity compensation (43_humidity_compensation.md) -/

/-- R160: the constants' encodings in both formats. Model's choice: `encodeF` and the meaning of IEEE 754 (log entry 6). -/
def Obligations.ConstantsHaveTheListedEncodings : Prop :=
  ([litA0, litA1, litA2, litQ0, litQ1, litTref, lit100, lit10, litHalf].map
      fun x => encodeF .binary64 (toFLit .binary64 x)) =
    [0xC0132339C0EBEDFA, 0x3FD9A6B50B0F27BB, 0xBF7018E757928E0D, 0x3FC941205BC01A37, 0x3F636A400FBA8827,
      0x403E000000000000, 0x4059000000000000, 0x4024000000000000, 0x3FE0000000000000] ∧
  ([litA0, litA1, litA2, litQ0, litQ1, litTref, lit100, lit10, litHalf].map
      fun x => encodeF .binary32 (toFLit .binary32 x)) =
    [0xC09919CE, 0x3ECD35A8, 0xBB80C73B, 0x3E4A0903, 0x3B1B5200, 0x41F00000, 0x42C80000, 0x41200000, 0x3F000000]

/-- R161, R162, R163, R164: COMP_HUM in every state: its words, (OK, VALUE), nothing else changed, the sentinel unchanged,
and otherwise the two stages, one rounding per operator in the order of the rules, wherever the integer result fits 32
bits. Model's choice: the meaning of IEEE 754, `toF` of stored words of 2^24 or more in magnitude included (log entries
5 and 6), and that outside 32 bits VALUE is free (log entry 7). -/
def Obligations.CompHumComputesTheTwoStages : Prop :=
  encode (.compHum false) = 0x2000#16 ∧ encode (.compHum true) = 0x2001#16 ∧
  ∀ (hp : Bool) (s : State),
    let F := s.params.floatFormat
    let c := fun (n : Int) (d : Nat) => fl F (mkRat n d)
    let v := fl F (fl F (mkRat s.lastH.toInt 1) / c 100 1)
    let p := fl F (fl F (fl F (c (-393) 100000 * fl F (v * v)) + fl F (c 4008 10000 * v)) + c (-47844) 10000)
    let lin := fl F (v - p)
    let d := fl F (fl F (fl F (mkRat s.lastT.toInt 1) / c 100 1) - c 30 1)
    let k := fl F (fl F (lin * c 237 100000) + c 1973 10000)
    let out := if s.lastT ≠ 55555#32 then fl F (lin + fl F (d * k)) else lin
    let sc := fl F (out * c 100 1)
    let y := fl F (sc / c 10 1)
    let result : Int :=
      if hp then (if sc < 0 then sc.ceil else sc.floor)
      else (if y ≥ 0 then (fl F (y + c 1 2)).floor else (fl F (y - c 1 2)).ceil)
    ∃ value : Value,
      exec (.compHum hp) s = .next { s with
        responses := s.responses ++ [⟨.ok, value⟩]
        pc := s.pc + 1 } ∧
      (s.lastH = 1111#32 → value = 1111#32) ∧
      (s.lastH ≠ 1111#32 → -2147483648 ≤ result → result ≤ 2147483647 → value.toInt = result)

/-- R165, which the spec derives from R164: COMP_HUM answers by LAST_H, LAST_T, hp and FLOAT_FORMAT alone, and again the
same after any run of steps in which no READ_RESULT is fetched. -/
def Obligations.CompHumRepeatsUntilAReadResult : Prop :=
  (∀ (hp : Bool) (s s' : State), s'.lastT = s.lastT → s'.lastH = s.lastH →
    s'.params.floatFormat = s.params.floatFormat →
    ∃ r t t', exec (.compHum hp) s = .next t ∧ exec (.compHum hp) s' = .next t' ∧
      RespondsWith s t r ∧ RespondsWith s' t' r) ∧
  (∀ (hp : Bool) (n : Nat) (s s' : State), Sys2Proof.core.run n s = .next s' →
    (∀ (k : Nat) (u : State), k < n → Sys2Proof.core.run k s = .next u →
      (u.program[u.pc]?).bind decode ≠ some .readResult) →
    ∃ r t t', exec (.compHum hp) s = .next t ∧ exec (.compHum hp) s' = .next t' ∧
      RespondsWith s t r ∧ RespondsWith s' t' r)

/-- R166, first row, which the spec derives from R161 to R163 and R138: with a measured temperature the results lie in the
rule's ranges, in both formats. -/
def Obligations.CompHumRangeWithATemperature : Prop :=
  ∀ (F : FloatFormat) (t h : Value), LegalLastT t → t ≠ 55555#32 → LegalLastH h → h ≠ 1111#32 →
    -2172 ≤ compResult F true t h ∧ compResult F true t h ≤ 80397 ∧
    -217 ≤ compResult F false t h ∧ compResult F false t h ≤ 8040

/-- R166, second row, which the spec derives from R161 to R163 and R138: without a temperature the results lie in the
rule's ranges, in both formats. -/
def Obligations.CompHumRangeWithoutATemperature : Prop :=
  ∀ (F : FloatFormat) (h : Value), LegalLastH h → h ≠ 1111#32 →
    -733 ≤ compResult F true 55555#32 h ∧ compResult F true 55555#32 h ≤ 35515 ∧
    -73 ≤ compResult F false 55555#32 h ∧ compResult F false 55555#32 h ≤ 3552

/-- R166, the two consequences the spec derives: a measured humidity can answer 1111, and a result can depend on
FLOAT_FORMAT. -/
def Obligations.CompHumCollidesWithTheSentinel : Prop :=
  (∀ F : FloatFormat, compHumValue F false 55555#32 (BitVec.ofInt 32 10506) = 1111#32 ∧
    compHumValue F true (BitVec.ofInt 32 (-4629)) (BitVec.ofInt 32 3656) = 1111#32) ∧
  compHumValue .binary64 true (BitVec.ofInt 32 (-5000)) (BitVec.ofInt 32 14400) = 12405#32 ∧
  compHumValue .binary32 true (BitVec.ofInt 32 (-5000)) (BitVec.ofInt 32 14400) = 12406#32

/-- R164, "F operations on these inputs cannot overflow": for all stored words, reachable or not, the result of every
operation COMP_HUM makes stays below 2^127, so below the largest finite value of both formats. -/
def Obligations.CompHumNeverOverflows : Prop :=
  ∀ (F : FloatFormat) (t h : Value),
    let c := fun (n : Int) (d : Nat) => fl F (mkRat n d)
    let fh := fl F (mkRat h.toInt 1)
    let v := fl F (fh / c 100 1)
    let vv := fl F (v * v)
    let quad := fl F (c (-393) 100000 * vv)
    let slope := fl F (c 4008 10000 * v)
    let sum := fl F (quad + slope)
    let p := fl F (sum + c (-47844) 10000)
    let lin := fl F (v - p)
    let ft := fl F (mkRat t.toInt 1)
    let deg := fl F (ft / c 100 1)
    let d := fl F (deg - c 30 1)
    let lq := fl F (lin * c 237 100000)
    let k := fl F (lq + c 1973 10000)
    let dk := fl F (d * k)
    let comp := fl F (lin + dk)
    (∀ x ∈ [fh, v, vv, quad, slope, sum, p, lin, ft, deg, d, lq, k, dk, comp], |x| < 2 ^ 127) ∧
    ∀ out ∈ [lin, comp],
      let sc := fl F (out * c 100 1)
      let y := fl F (sc / c 10 1)
      |sc| < 2 ^ 127 ∧ |y| < 2 ^ 127 ∧ |fl F (y + c 1 2)| < 2 ^ 127 ∧ |fl F (y - c 1 2)| < 2 ^ 127

/-- R8: `fl` gives a value of the format, none is nearer, and of two equally near ones it is the even one. Model's choice:
the meaning of IEEE 754 (log entries 5 and 6). -/
def Obligations.RoundingIsToNearestTiesToEven : Prop :=
  ∀ (F : FloatFormat) (x : Rat),
    Representable F (fl F x) ∧
    (∀ y, Representable F y → |x - fl F x| ≤ |x - y|) ∧
    (∀ y, Representable F y → y ≠ fl F x → |x - y| = |x - fl F x| →
      ∃ m : Int, fl F x = 2 * (m : Rat) * pow2 (lastPlace F |x|)) ∧
    (Representable F x → fl F x = x)

/-! ### Accessors (44_accessors.md) -/

/-- R180: GET_LAST_TEMP answers (OK, LAST_T) in every state and changes nothing else. -/
def Obligations.GetLastTempAnswersLastT : Prop :=
  encode .getLastTemp = 0x2100#16 ∧
  ∀ s : State, exec .getLastTemp s = .next { s with
    responses := s.responses ++ [⟨.ok, s.lastT⟩]
    pc := s.pc + 1 }

/-- R181: GET_LAST_HUM answers (OK, LAST_H) in every state and changes nothing else. -/
def Obligations.GetLastHumAnswersLastH : Prop :=
  encode .getLastHum = 0x2200#16 ∧
  ∀ s : State, exec .getLastHum s = .next { s with
    responses := s.responses ++ [⟨.ok, s.lastH⟩]
    pc := s.pc + 1 }

/-! ### Rules over all commands -/

/-- R45: each command's bus accesses and sleeps, for every command and for an illegal word. -/
def Obligations.EachCommandMakesItsListedAccesses : Prop :=
  (∀ (i : Instr) (s t : State), exec i s = .next t → ∃ new, t.trace = s.trace ++ new ∧
    match i with
    | .getId => ∃ hold r, new = [.read s.addr 0x11#8 1 hold r]
    | .getStatus => ∃ hold r, new = [.read s.addr 0x00#8 1 hold r]
    | .getConfig => ∃ hold r, new = [.read s.addr 0x03#8 1 hold r]
    | .setConfig cfg => ∃ ok, new = [.write s.addr 0x03#8 cfg ok]
    | .startTemp fast heat => ∃ ok, new = [.write s.addr 0x03#8 (cfgStart .temp fast heat) ok]
    | .startHum fast heat => ∃ ok, new = [.write s.addr 0x03#8 (cfgStart .hum fast heat) ok]
    | .isConverting => ∃ hold r, new = [.read s.addr 0x00#8 1 hold r]
    | .waitConv =>
      (∀ e ∈ new, e = .sleep ∨ ∃ hold r, e = .read s.addr 0x00#8 1 hold r) ∧
      1 ≤ (new.filter fun e => e ≠ .sleep).length ∧ (new.filter fun e => e ≠ .sleep).length ≤ 50 ∧
      (new.filter fun e => e = .sleep).length ≤ 50
    | .readResult =>
      (∃ hold, new = [.read s.addr 0x01#8 2 hold none]) ∨
      (∃ hold hold' b0 b1 r, new = [.read s.addr 0x01#8 2 hold (some [b0, b1]), .read s.addr 0x03#8 1 hold' r])
    | .compHum _ => new = []
    | .getLastTemp => new = []
    | .getLastHum => new = []) ∧
  (∀ (s t : State) (w : CmdWord), s.program[s.pc]? = some w → decode w = none → step s = .next t →
    t.trace = s.trace)

/-- R201, R61, R205: each command answers exactly one response, with one of its STATUS codes and the VALUE that goes with
it; and the numeric codes. -/
def Obligations.EachCommandReportsOnlyItsStatuses : Prop :=
  (Status.code .ok = 0#2 ∧ Status.code .busError = 1#2 ∧ Status.code .timeout = 2#2 ∧
    Status.code .illegalCommand = 3#2) ∧
  (∀ (i : Instr) (s t : State), exec i s = .next t → ∃ r, RespondsWith s t r ∧
    match i with
    | .getId => r.status = .ok ∧ r.value.toNat < 256 ∨ r = ⟨.busError, 0xFF#32⟩
    | .getStatus => r.status = .ok ∧ r.value.toNat < 256 ∨ r = ⟨.busError, 0xFF#32⟩
    | .getConfig => r.status = .ok ∧ r.value.toNat < 256 ∨ r = ⟨.busError, 0xFF#32⟩
    | .setConfig _ => r = ⟨.ok, 1#32⟩ ∨ r = ⟨.busError, 0#32⟩
    | .startTemp _ _ => r = ⟨.ok, 1#32⟩ ∨ r = ⟨.busError, 0#32⟩
    | .startHum _ _ => r = ⟨.ok, 1#32⟩ ∨ r = ⟨.busError, 0#32⟩
    | .isConverting => r = ⟨.ok, 0#32⟩ ∨ r = ⟨.ok, 1#32⟩ ∨ r = ⟨.busError, 1#32⟩
    | .waitConv => r.status = .ok ∧ r.value.toNat < 50 ∨ r = ⟨.timeout, 50#32⟩
    | .readResult => r.status = .ok ∧ -500 ≤ r.value.toInt ∧ r.value.toInt ≤ 4620 ∨ r = ⟨.busError, 12345#32⟩
    | .compHum _ => r.status = .ok
    | .getLastTemp => r = ⟨.ok, s.lastT⟩
    | .getLastHum => r = ⟨.ok, s.lastH⟩) ∧
  (∀ (s t : State) (w : CmdWord), s.program[s.pc]? = some w → decode w = none → step s = .next t →
    RespondsWith s t ⟨.illegalCommand, 0#32⟩)

/-- R21: ADDR is set at reset to DEV_ADDR (default 0x40), no step changes it or a parameter, and it is the device address
of every bus call. -/
def Obligations.AddrIsFixedAndAddressesEveryCall : Prop :=
  (∀ p : Params, (State.resetWith p).addr = p.devAddr) ∧ State.reset.addr = 0x40#7 ∧
  (∀ s t : State, step s = .next t → t.addr = s.addr ∧ t.params = s.params ∧
    ∃ new, t.trace = s.trace ++ new ∧
      ∀ e ∈ new, match e with
        | .read dev _ _ _ _ => dev = s.addr
        | .write dev _ _ _ => dev = s.addr
        | .sleep => True)

/-! ### Invariants that every step keeps -/

/-- R24, which the spec derives from R22, R23, R131, R132 and R136: each stored reading stays its sentinel or a value the
decode can produce. -/
def Obligations.StepKeepsTheReadingsLegal : Prop :=
  ∀ s t : State, LegalReadings s → step s = .next t → LegalReadings t

/-- R29, R41, R44, R45: every call on the trace goes to ADDR and to a register the map allows for it, one byte or the two
data bytes, and its reply has the length asked for. -/
def Obligations.StepKeepsTheTraceLegal : Prop :=
  ∀ s t : State, LegalTrace s → step s = .next t → LegalTrace t

/-- R27, R233: one response for each completed command, and the index inside the sequence. -/
def Obligations.StepKeepsOneResponsePerCommand : Prop :=
  ∀ s t : State, ResponsesMatchPc s → step s = .next t → ResponsesMatchPc t

/-- R108, R109: in CONVERTING(q), READY(q) and TIMED_OUT(q) the last CONFIG write on the trace is a successful start of q.
The premise rules out states whose responses do not match the sequence, which no run reaches. -/
def Obligations.StepKeepsThePhaseTrueToTheWrites : Prop :=
  ∀ s t : State, ResponsesMatchPc s → PhaseMatchesWrites s → step s = .next t → PhaseMatchesWrites t

/-- R24, R27, R108: the state after reset has every invariant above, for every value of the parameters. -/
def Obligations.ResetHasEveryInvariant : Prop :=
  ∀ p : Params, LegalReadings (State.resetWith p) ∧ LegalTrace (State.resetWith p) ∧
    ResponsesMatchPc (State.resetWith p) ∧ PhaseMatchesWrites (State.resetWith p) ∧ AddrFixed (State.resetWith p)

/-- R109, which the spec derives from R108 and R136: a well-sequenced READ_RESULT, with the single-owner premise of R234
on the CONFIG byte it reads back, stores the quantity whose start began the conversion and leaves the other one alone. -/
def Obligations.WellSequencedReadStoresTheStartedQuantity : Prop :=
  ∀ (s t : State) (q : Quantity) (b0 b1 cfg c1 : Byte),
    PhaseMatchesWrites s → WellSequenced s q →
    s.answerTo (.read s.addr 0x01#8 2 (Config.readHold .resultData)) = .ok b0 b1 →
    (s.afterCall (.read s.addr 0x01#8 2 (Config.readHold .resultData) (some [b0, b1]))).answerTo
      (.read s.addr 0x03#8 1 (Config.readHold .resultConfig)) = .ok cfg c1 →
    SingleOwner s cfg → exec .readResult s = .next t →
    match q with
    | .temp => t.lastT = BitVec.ofInt 32 (decodeT (b0.toNat * 256 + b1.toNat)) ∧ t.lastH = s.lastH
    | .hum => t.lastH = BitVec.ofInt 32 (decodeH (b0.toNat * 256 + b1.toNat)) ∧ t.lastT = s.lastT
end

