-- ==== Sys2Proof/Laws/Assembly.lean ====
section
/-! SUPPORT. The spellings of digits and bits are read back as what they spell. -/

namespace Sys2Proof.Machine

theorem digitValue_hexDigit (n : Nat) (h : n < 16) : digitValue (hexDigit n) = some n := by
  revert n
  decide +kernel

@[simp] theorem readBit_bitSpelling (b : Bool) : readBit (bitSpelling b) = some b := by
  cases b <;> rfl

end Sys2Proof.Machine
end

