-- ==== Sys2Proof/Laws/Encoding.lean ====
section
/-! SUPPORT. Small lemmas about the fields of a word, the encoder and the serialised bytes. -/

namespace Sys2Proof

@[simp] theorem opField_joinFields (op opd : Byte) : opField (joinFields op opd) = op := by
  apply BitVec.eq_of_getLsbD_eq
  intro i hi
  have h1 : ¬ (8 + i < 8) := by omega
  have h2 : 8 + i < 16 := by omega
  simp [opField, joinFields, hi, h2]

@[simp] theorem opdField_joinFields (op opd : Byte) : opdField (joinFields op opd) = opd := by
  apply BitVec.eq_of_getLsbD_eq
  intro i hi
  have h1 : i < 16 := by omega
  simp [opdField, joinFields, hi, h1]

/-- A word is its two fields. -/
theorem joinFields_fields (w : CmdWord) : joinFields (opField w) (opdField w) = w := by
  apply BitVec.eq_of_getLsbD_eq
  intro i hi
  by_cases h : i < 8
  · simp [opField, opdField, joinFields, hi, h]
  · have h1 : i - 8 < 8 := by omega
    have h2 : 8 + (i - 8) = i := by omega
    simp [opField, opdField, joinFields, hi, h, h1, h2]

@[simp] theorem opField_encode (i : Instr) : opField (encode i) = i.opcode := by simp [encode]

@[simp] theorem opdField_encode (i : Instr) : opdField (encode i) = i.operandByte := by simp [encode]

theorem fhByte_wf (fast heat : Bool) : Format.fh.operandWf (fhByte fast heat) = true := by
  cases fast <;> cases heat <;> decide

theorem hpByte_wf (hp : Bool) : Format.p.operandWf (hpByte hp) = true := by
  cases hp <;> decide

theorem i8_wf (cfg : Byte) : Format.i8.operandWf cfg = true := by
  simp [Format.operandWf, Format.reservedMask]

/-- A byte of format Z is well formed exactly when it is 0. -/
theorem z_wf_iff (opd : Byte) : Format.z.operandWf opd = true ↔ opd = 0x00#8 := by
  revert opd; decide

/-- A byte of format FH is the byte of its two flags exactly when it is well formed. -/
theorem fh_wf_iff (opd : Byte) :
    Format.fh.operandWf opd = true ↔ fhByte (opd.getLsbD 5) (opd.getLsbD 1) = opd := by
  revert opd; decide

/-- A byte of format P is the byte of its flag exactly when it is well formed. -/
theorem p_wf_iff (opd : Byte) : Format.p.operandWf opd = true ↔ hpByte (opd.getLsbD 0) = opd := by
  revert opd; decide

/-- What the decoder does with a decoded operand byte. -/
theorem acceptOperand_cases (op opd : Byte) (i : Instr) :
    (i.format.operandWf opd = true ∧ acceptOperand op opd i = .ok i) ∨
      (i.format.operandWf opd = false ∧ acceptOperand op opd i = .error (.reservedOperandBits op opd)) := by
  cases h : i.format.operandWf opd <;> simp [acceptOperand, h]

end Sys2Proof
end

