-- ==== Sys2Proof/Laws/State.lean ====
section
/-! SUPPORT. What each update of State does to each field, one lemma a field, true by rfl. -/

namespace Sys2Proof.Machine

variable (s : State)

@[simp] theorem afterCall_params (e : BusEvent) : (s.afterCall e).params = s.params := rfl
@[simp] theorem afterCall_addr (e : BusEvent) : (s.afterCall e).addr = s.addr := rfl
@[simp] theorem afterCall_lastT (e : BusEvent) : (s.afterCall e).lastT = s.lastT := rfl
@[simp] theorem afterCall_lastH (e : BusEvent) : (s.afterCall e).lastH = s.lastH := rfl
@[simp] theorem afterCall_pc (e : BusEvent) : (s.afterCall e).pc = s.pc := rfl
@[simp] theorem afterCall_program (e : BusEvent) : (s.afterCall e).program = s.program := rfl
@[simp] theorem afterCall_responses (e : BusEvent) : (s.afterCall e).responses = s.responses := rfl
@[simp] theorem afterCall_trace (e : BusEvent) : (s.afterCall e).trace = s.trace ++ [e] := rfl
@[simp] theorem afterCall_answers (e : BusEvent) : (s.afterCall e).answers = s.answers.tail := rfl

@[simp] theorem sleepOne_params : (sleepOne s).params = s.params := rfl
@[simp] theorem sleepOne_addr : (sleepOne s).addr = s.addr := rfl
@[simp] theorem sleepOne_lastT : (sleepOne s).lastT = s.lastT := rfl
@[simp] theorem sleepOne_lastH : (sleepOne s).lastH = s.lastH := rfl
@[simp] theorem sleepOne_pc : (sleepOne s).pc = s.pc := rfl
@[simp] theorem sleepOne_program : (sleepOne s).program = s.program := rfl
@[simp] theorem sleepOne_responses : (sleepOne s).responses = s.responses := rfl
@[simp] theorem sleepOne_trace : (sleepOne s).trace = s.trace ++ [.sleep] := rfl
@[simp] theorem sleepOne_answers : (sleepOne s).answers = s.answers := rfl

@[simp] theorem setLastT_params (v : Value) : (setLastT v s).params = s.params := rfl
@[simp] theorem setLastT_addr (v : Value) : (setLastT v s).addr = s.addr := rfl
@[simp] theorem setLastT_lastT (v : Value) : (setLastT v s).lastT = v := rfl
@[simp] theorem setLastT_lastH (v : Value) : (setLastT v s).lastH = s.lastH := rfl
@[simp] theorem setLastT_pc (v : Value) : (setLastT v s).pc = s.pc := rfl
@[simp] theorem setLastT_program (v : Value) : (setLastT v s).program = s.program := rfl
@[simp] theorem setLastT_responses (v : Value) : (setLastT v s).responses = s.responses := rfl
@[simp] theorem setLastT_trace (v : Value) : (setLastT v s).trace = s.trace := rfl
@[simp] theorem setLastT_answers (v : Value) : (setLastT v s).answers = s.answers := rfl

@[simp] theorem setLastH_params (v : Value) : (setLastH v s).params = s.params := rfl
@[simp] theorem setLastH_addr (v : Value) : (setLastH v s).addr = s.addr := rfl
@[simp] theorem setLastH_lastT (v : Value) : (setLastH v s).lastT = s.lastT := rfl
@[simp] theorem setLastH_lastH (v : Value) : (setLastH v s).lastH = v := rfl
@[simp] theorem setLastH_pc (v : Value) : (setLastH v s).pc = s.pc := rfl
@[simp] theorem setLastH_program (v : Value) : (setLastH v s).program = s.program := rfl
@[simp] theorem setLastH_responses (v : Value) : (setLastH v s).responses = s.responses := rfl
@[simp] theorem setLastH_trace (v : Value) : (setLastH v s).trace = s.trace := rfl
@[simp] theorem setLastH_answers (v : Value) : (setLastH v s).answers = s.answers := rfl

@[simp] theorem respond_params (st : Status) (v : Value) : (respond st v s).params = s.params := rfl
@[simp] theorem respond_addr (st : Status) (v : Value) : (respond st v s).addr = s.addr := rfl
@[simp] theorem respond_lastT (st : Status) (v : Value) : (respond st v s).lastT = s.lastT := rfl
@[simp] theorem respond_lastH (st : Status) (v : Value) : (respond st v s).lastH = s.lastH := rfl
@[simp] theorem respond_pc (st : Status) (v : Value) : (respond st v s).pc = s.pc + 1 := rfl
@[simp] theorem respond_program (st : Status) (v : Value) : (respond st v s).program = s.program := rfl
@[simp] theorem respond_responses (st : Status) (v : Value) : (respond st v s).responses = s.responses ++ [⟨st, v⟩] := rfl
@[simp] theorem respond_trace (st : Status) (v : Value) : (respond st v s).trace = s.trace := rfl
@[simp] theorem respond_answers (st : Status) (v : Value) : (respond st v s).answers = s.answers := rfl

@[simp] theorem raiseIllegal_params : (raiseIllegal s).params = s.params := rfl
@[simp] theorem raiseIllegal_addr : (raiseIllegal s).addr = s.addr := rfl
@[simp] theorem raiseIllegal_lastT : (raiseIllegal s).lastT = s.lastT := rfl
@[simp] theorem raiseIllegal_lastH : (raiseIllegal s).lastH = s.lastH := rfl
@[simp] theorem raiseIllegal_pc : (raiseIllegal s).pc = s.pc + 1 := rfl
@[simp] theorem raiseIllegal_program : (raiseIllegal s).program = s.program := rfl
@[simp] theorem raiseIllegal_responses : (raiseIllegal s).responses = s.responses ++ [⟨.illegalCommand, 0#32⟩] := rfl
@[simp] theorem raiseIllegal_trace : (raiseIllegal s).trace = s.trace := rfl
@[simp] theorem raiseIllegal_answers : (raiseIllegal s).answers = s.answers := rfl

@[simp] theorem present_params (w : CmdWord) : (s.present w).params = s.params := rfl
@[simp] theorem present_addr (w : CmdWord) : (s.present w).addr = s.addr := rfl
@[simp] theorem present_lastT (w : CmdWord) : (s.present w).lastT = s.lastT := rfl
@[simp] theorem present_lastH (w : CmdWord) : (s.present w).lastH = s.lastH := rfl
@[simp] theorem present_pc (w : CmdWord) : (s.present w).pc = s.pc := rfl
@[simp] theorem present_program (w : CmdWord) : (s.present w).program = s.program ++ [w] := rfl
@[simp] theorem present_responses (w : CmdWord) : (s.present w).responses = s.responses := rfl
@[simp] theorem present_trace (w : CmdWord) : (s.present w).trace = s.trace := rfl
@[simp] theorem present_answers (w : CmdWord) : (s.present w).answers = s.answers := rfl

@[simp] theorem supply_params (as : List Answer) : (s.supply as).params = s.params := rfl
@[simp] theorem supply_addr (as : List Answer) : (s.supply as).addr = s.addr := rfl
@[simp] theorem supply_lastT (as : List Answer) : (s.supply as).lastT = s.lastT := rfl
@[simp] theorem supply_lastH (as : List Answer) : (s.supply as).lastH = s.lastH := rfl
@[simp] theorem supply_pc (as : List Answer) : (s.supply as).pc = s.pc := rfl
@[simp] theorem supply_program (as : List Answer) : (s.supply as).program = s.program := rfl
@[simp] theorem supply_responses (as : List Answer) : (s.supply as).responses = s.responses := rfl
@[simp] theorem supply_trace (as : List Answer) : (s.supply as).trace = s.trace := rfl
@[simp] theorem supply_answers (as : List Answer) : (s.supply as).answers = s.answers ++ as := rfl

@[simp] theorem applyReset_params (ws : List CmdWord) : (s.applyReset ws).params = s.params := rfl
@[simp] theorem applyReset_addr (ws : List CmdWord) : (s.applyReset ws).addr = s.params.devAddr := rfl
@[simp] theorem applyReset_lastT (ws : List CmdWord) : (s.applyReset ws).lastT = sentT := rfl
@[simp] theorem applyReset_lastH (ws : List CmdWord) : (s.applyReset ws).lastH = sentH := rfl
@[simp] theorem applyReset_pc (ws : List CmdWord) : (s.applyReset ws).pc = 0 := rfl
@[simp] theorem applyReset_program (ws : List CmdWord) : (s.applyReset ws).program = ws := rfl
@[simp] theorem applyReset_responses (ws : List CmdWord) : (s.applyReset ws).responses = [] := rfl
@[simp] theorem applyReset_trace (ws : List CmdWord) : (s.applyReset ws).trace = s.trace := rfl
@[simp] theorem applyReset_answers (ws : List CmdWord) : (s.applyReset ws).answers = s.answers := rfl

@[simp] theorem resetWith_addr (p : Params) : (State.resetWith p).addr = p.devAddr := rfl
@[simp] theorem resetWith_params (p : Params) : (State.resetWith p).params = p := rfl
@[simp] theorem resetWith_lastT (p : Params) : (State.resetWith p).lastT = sentT := rfl
@[simp] theorem resetWith_lastH (p : Params) : (State.resetWith p).lastH = sentH := rfl
@[simp] theorem resetWith_pc (p : Params) : (State.resetWith p).pc = 0 := rfl
@[simp] theorem resetWith_program (p : Params) : (State.resetWith p).program = [] := rfl
@[simp] theorem resetWith_responses (p : Params) : (State.resetWith p).responses = [] := rfl
@[simp] theorem resetWith_trace (p : Params) : (State.resetWith p).trace = [] := rfl
@[simp] theorem resetWith_answers (p : Params) : (State.resetWith p).answers = [] := rfl

end Sys2Proof.Machine
end

