-- ==== Sys2Proof/Laws/Ops.lean ====
section
/-! SUPPORT. One lemma for each shared operation that says everything it can do, for later proofs to cite instead of
unfolding it. -/

namespace Sys2Proof.Machine

/-! ### The device's answers -/

theorem answerTo_cons (s : State) (a : Answer) (rest : List Answer) (c : BusCall) (h : s.answers = a :: rest) :
    s.answerTo c = a := by
  simp [State.answerTo, h]

theorem answerTo_nil (s : State) (h : s.answers = []) (c : BusCall) :
    s.answerTo c = Config.deviceAnswer s.trace c := by
  simp [State.answerTo, h]

@[simp] theorem replyByte_ok (b0 b1 : Byte) : replyByte (.ok b0 b1) = some b0 := rfl
@[simp] theorem replyByte_err : replyByte .err = none := rfl
@[simp] theorem replyPair_ok (b0 b1 : Byte) : replyPair (.ok b0 b1) = some (b0, b1) := rfl
@[simp] theorem replyPair_err : replyPair .err = none := rfl
@[simp] theorem writeAccepted_ok (b0 b1 : Byte) : writeAccepted (.ok b0 b1) = true := rfl
@[simp] theorem writeAccepted_err : writeAccepted .err = false := rfl

/-! ### Bus calls: each uses one answer and records one event -/

@[simp] theorem memRead1_reply (k : ReadKind) (reg : RegAddr) (s : State) :
    (memRead1 k reg s).1 = replyByte (s.answerTo (s.readCall k reg 1)) := rfl

@[simp] theorem memRead1_state (k : ReadKind) (reg : RegAddr) (s : State) :
    (memRead1 k reg s).2 =
      s.afterCall (s.readEvent k reg 1 ((replyByte (s.answerTo (s.readCall k reg 1))).map fun b => [b])) := rfl

@[simp] theorem memRead2_reply (k : ReadKind) (reg : RegAddr) (s : State) :
    (memRead2 k reg s).1 = replyPair (s.answerTo (s.readCall k reg 2)) := rfl

@[simp] theorem memRead2_state (k : ReadKind) (reg : RegAddr) (s : State) :
    (memRead2 k reg s).2 =
      s.afterCall (s.readEvent k reg 2 ((replyPair (s.answerTo (s.readCall k reg 2))).map fun p => [p.1, p.2])) := rfl

@[simp] theorem memWrite_ok (reg : RegAddr) (v : Byte) (s : State) :
    (memWrite reg v s).1 = writeAccepted (s.answerTo (.write s.addr reg v)) := rfl

@[simp] theorem memWrite_state (reg : RegAddr) (v : Byte) (s : State) :
    (memWrite reg v s).2 = s.afterCall (.write s.addr reg v (writeAccepted (s.answerTo (.write s.addr reg v)))) := rfl

@[simp] theorem readCall_afterCall (s : State) (e : BusEvent) (k : ReadKind) (reg : RegAddr) (len : Nat) :
    (s.afterCall e).readCall k reg len = s.readCall k reg len := rfl

@[simp] theorem readEvent_afterCall (s : State) (e : BusEvent) (k : ReadKind) (reg : RegAddr) (len : Nat)
    (reply : Option (List Byte)) : (s.afterCall e).readEvent k reg len reply = s.readEvent k reg len reply := rfl

/-! ### The commands' shared bodies -/

/-- A byte read: its one event, and the byte or 0xFF. -/
theorem byteReadCommand_cases (k : ReadKind) (reg : RegAddr) (s : State) :
    (∃ b, byteReadCommand k reg s = respond .ok (zext32 b) (s.afterCall (s.readEvent k reg 1 (some [b])))) ∨
      byteReadCommand k reg s = respond .busError errorByteValue (s.afterCall (s.readEvent k reg 1 none)) := by
  cases h : s.answerTo (s.readCall k reg 1) with
  | err => right; simp [byteReadCommand, h]
  | ok b0 b1 => left; exact ⟨b0, by simp [byteReadCommand, h]⟩

/-- A CONFIG write: its one event, and 1 or 0. -/
theorem configWriteCommand_cases (v : Byte) (s : State) :
    configWriteCommand v s = respond .ok 1#32 (s.afterCall (.write s.addr regConfig v true)) ∨
      configWriteCommand v s = respond .busError 0#32 (s.afterCall (.write s.addr regConfig v false)) := by
  cases h : s.answerTo (.write s.addr regConfig v) <;> simp [configWriteCommand, callStatus, boolValue, h]

/-- One poll by IS_CONVERTING: its one event, and the ready test of its reply. -/
theorem pollCommand_cases (s : State) :
    (∃ b, pollCommand s = respond .ok (boolValue (busy s.params.rdyPolarity (some b)))
        (s.afterCall (s.readEvent .isConverting regStatus 1 (some [b])))) ∨
      pollCommand s = respond .busError 1#32 (s.afterCall (s.readEvent .isConverting regStatus 1 none)) := by
  cases h : s.answerTo (s.readCall .isConverting regStatus 1) with
  | err => right; simp [pollCommand, callStatus, boolValue, busy, h]
  | ok b0 b1 => left; exact ⟨b0, by simp [pollCommand, callStatus, h]⟩

/-- The storing end of READ_RESULT: one of the two registers, by the TEMP bit. -/
theorem storeResult_cases (cfg : Byte) (code : Nat) (s : State) :
    (tempBit cfg = true ∧ storeResult cfg code s =
        respond .ok (sext32 (roundTenth (decodeT code))) (setLastT (BitVec.ofInt 32 (decodeT code)) s)) ∨
      (tempBit cfg = false ∧ storeResult cfg code s =
        respond .ok (sext32 (roundTenth (decodeH code))) (setLastH (BitVec.ofInt 32 (decodeH code)) s)) := by
  cases h : tempBit cfg <;> simp [storeResult, h]

/-- READ_RESULT's three endings: the data read failed, the CONFIG read failed, or both succeeded. -/
theorem readResultCommand_cases (s : State) :
    readResultCommand s = respond .busError sentU (s.afterCall (s.readEvent .resultData regDataHigh 2 none)) ∨
      (∃ b0 b1, readResultCommand s = respond .busError sentU
        ((s.afterCall (s.readEvent .resultData regDataHigh 2 (some [b0, b1]))).afterCall
          (s.readEvent .resultConfig regConfig 1 none))) ∨
      (∃ b0 b1 cfg, readResultCommand s = storeResult cfg (adcCode b0 b1)
        ((s.afterCall (s.readEvent .resultData regDataHigh 2 (some [b0, b1]))).afterCall
          (s.readEvent .resultConfig regConfig 1 (some [cfg])))) := by
  cases h : s.answerTo (s.readCall .resultData regDataHigh 2) with
  | err => left; simp [readResultCommand, h]
  | ok b0 b1 =>
    right
    cases h' : (s.afterCall (s.readEvent .resultData regDataHigh 2 (some [b0, b1]))).answerTo
        (s.readCall .resultConfig regConfig 1) with
    | err => left; exact ⟨b0, b1, by simp [readResultCommand, h, h']⟩
    | ok cfg c1 => right; exact ⟨b0, b1, cfg, by simp [readResultCommand, h, h']⟩

/-! ### The polling loop -/

theorem waitLoop_zero (count : Nat) (s : State) :
    waitLoop 0 count s = respond .timeout (BitVec.ofNat 32 count) s := rfl

theorem waitLoop_succ_busy (left count : Nat) (s : State)
    (h : busy s.params.rdyPolarity (memRead1 .waitConv regStatus s).1 = true) :
    waitLoop (left + 1) count s = waitLoop left (count + 1) (sleepOne (memRead1 .waitConv regStatus s).2) := by
  rw [waitLoop]; simp only [h, if_true]

theorem waitLoop_succ_ready (left count : Nat) (s : State)
    (h : busy s.params.rdyPolarity (memRead1 .waitConv regStatus s).1 = false) :
    waitLoop (left + 1) count s = respond .ok (BitVec.ofNat 32 count) (memRead1 .waitConv regStatus s).2 := by
  rw [waitLoop]; simp only [h]; rfl

/-! ### Values -/

@[simp] theorem zext32_toNat (b : Byte) : (zext32 b).toNat = b.toNat := by
  simp only [zext32, BitVec.toNat_setWidth]
  exact Nat.mod_eq_of_lt (by have := b.isLt; omega)

theorem fitS32_toInt (n : Int) (h : -2147483648 ≤ n) (h' : n ≤ 2147483647) : (fitS32 n).toInt = n := by
  simp only [fitS32, h, h', and_self, if_true, BitVec.toInt_ofInt]
  exact Int.bmod_eq_of_le (by omega) (by omega)

theorem sext32_toInt (n : Int) (h : -32768 ≤ n) (h' : n ≤ 32767) : (sext32 n).toInt = n := by
  rw [sext32, BitVec.toInt_signExtend_of_le (by omega), BitVec.toInt_ofInt]
  exact Int.bmod_eq_of_le (by omega) (by omega)

/-- The code of two bytes is a 16-bit number. -/
theorem adcCode_lt (b0 b1 : Byte) : adcCode b0 b1 < 65536 := by
  have := b0.isLt
  have := b1.isLt
  simp only [adcCode]
  omega

/-- The scalings without shifts and truncating division. -/
theorem decodeT_eq (c : Nat) : decodeT c = ((c / 4 * 100 / 32 : Nat) : Int) - 5000 := by
  simp only [decodeT, Nat.shiftRight_eq_div_pow]
  rw [Int.tdiv_eq_ediv_of_nonneg (by positivity)]
  norm_cast

theorem decodeH_eq (c : Nat) : decodeH c = ((c / 16 * 100 / 16 : Nat) : Int) - 2400 := by
  simp only [decodeH, Nat.shiftRight_eq_div_pow]
  rw [Int.tdiv_eq_ediv_of_nonneg (by positivity)]
  norm_cast

/-- R10 with floor division. -/
theorem roundTenth_eq (x : Int) : roundTenth x = if 0 ≤ x then (x + 5) / 10 else -((-x + 5) / 10) := by
  unfold roundTenth
  split <;> rw [Int.tdiv_eq_ediv_of_nonneg (by omega)]

end Sys2Proof.Machine
end

