-- ==== Sys2Proof/Laws/Step.lean ====
section
/-! SUPPORT. What a step can do, and the placing of a word where the step fetches it. -/

namespace Sys2Proof.Machine

/-- Every ending of a step: idle, an illegal word, or a command. -/
theorem step_cases {s t : State} (h : step s = .next t) :
    (s.fetch = none ∧ t = s) ∨
      (∃ w, s.fetch = some w ∧ decode w = none ∧ t = raiseIllegal s) ∨
      (∃ w i, s.fetch = some w ∧ decode w = some i ∧ exec i s = .next t) := by
  unfold step at h
  cases hf : s.fetch with
  | none => rw [hf] at h; cases h; exact .inl ⟨rfl, rfl⟩
  | some w =>
    rw [hf] at h
    cases hd : decode w with
    | none => simp only [hd] at h; cases h; exact .inr (.inl ⟨w, rfl, hd, rfl⟩)
    | some i => simp only [hd] at h; exact .inr (.inr ⟨w, i, rfl, hd, h⟩)

theorem step_of_decode {s : State} {w : CmdWord} {i : Instr} (hf : s.fetch = some w) (hd : decode w = some i) :
    step s = exec i s := by
  simp [step, hf, hd]

theorem step_of_illegal {s : State} {w : CmdWord} (hf : s.fetch = some w) (hd : decode w = none) :
    step s = .next (raiseIllegal s) := by
  simp [step, hf, hd]

theorem step_of_idle {s : State} (hf : s.fetch = none) : step s = .next s := by
  simp [step, hf]

theorem getElem?_placeWord (ws : List CmdWord) (n : Nat) (w : CmdWord) : (placeWord ws n w)[n]? = some w := by
  induction n generalizing ws with
  | zero => cases ws <;> simp [placeWord]
  | succ n ih => cases ws <;> simp [placeWord, ih]

@[simp] theorem fetch_withFetchWord (s : State) (nbits w : Nat) :
    (s.withFetchWord nbits w).fetch = some (BitVec.ofNat 16 w) :=
  getElem?_placeWord s.program s.pc (BitVec.ofNat 16 w)

end Sys2Proof.Machine
end

