-- ==== Sys2Proof/Laws/Exec.lean ====
section
/-! SUPPORT. Once for all: what each command can do (`exec_effect`), and what a step adds to the history. -/

namespace Sys2Proof.Machine

@[simp] theorem afterBusyPolls_nil (s : State) : afterBusyPolls s [] = s := by simp [afterBusyPolls]

@[simp] theorem afterBusyPolls_append (s : State) (a b : List (Option Byte)) :
    afterBusyPolls (afterBusyPolls s a) b = afterBusyPolls s (a ++ b) := by
  simp [afterBusyPolls]
  rfl

/-- One busy poll and its sleep. -/
theorem sleepOne_poll (s : State) (pre : List (Option Byte)) :
    sleepOne (memRead1 .waitConv regStatus (afterBusyPolls s pre)).2 =
      afterBusyPolls s (pre ++ [pollReply (afterBusyPolls s pre)]) := by
  have e : (memRead1 .waitConv regStatus (afterBusyPolls s pre)).2 =
    (afterBusyPolls s pre).afterCall (pollEvent s (pollReply (afterBusyPolls s pre))) := rfl
  rw [e]
  simp [sleepOne, afterBusyPolls, State.afterCall]

/-- What the polling loop does from a state that busy polls with the replies `pre` have led to: the replies of its own busy
polls, each the device's at that moment, and the response. -/
theorem waitLoop_spec (left : Nat) (s : State) (pre : List (Option Byte)) :
    ∃ busies : List (Option Byte),
      (∀ j r, busies[j]? = some r →
        r = pollReply (afterBusyPolls s (pre ++ busies.take j)) ∧ busy s.params.rdyPolarity r = true) ∧
      ((busies.length < left ∧ busy s.params.rdyPolarity (pollReply (afterBusyPolls s (pre ++ busies))) = false ∧
          waitLoop left pre.length (afterBusyPolls s pre) =
            respond .ok (BitVec.ofNat 32 (pre.length + busies.length))
              ((afterBusyPolls s (pre ++ busies)).afterCall
                (pollEvent s (pollReply (afterBusyPolls s (pre ++ busies)))))) ∨
        (busies.length = left ∧ waitLoop left pre.length (afterBusyPolls s pre) =
          respond .timeout (BitVec.ofNat 32 (pre.length + left)) (afterBusyPolls s (pre ++ busies)))) := by
  induction left generalizing pre with
  | zero => exact ⟨[], by simp, .inr ⟨rfl, by simp [waitLoop_zero]⟩⟩
  | succ left ih =>
    have e : (memRead1 .waitConv regStatus (afterBusyPolls s pre)).1 = pollReply (afterBusyPolls s pre) := rfl
    cases hb : busy s.params.rdyPolarity (pollReply (afterBusyPolls s pre)) with
    | false =>
      refine ⟨[], by simp, .inl ⟨by simp, by simpa using hb, ?_⟩⟩
      rw [waitLoop_succ_ready _ _ _ (by rw [e]; exact hb), List.append_nil]
      rfl
    | true =>
      obtain ⟨rest, h1, h2⟩ := ih (pre ++ [pollReply (afterBusyPolls s pre)])
      have w := waitLoop_succ_busy left pre.length (afterBusyPolls s pre) (by rw [e]; exact hb)
      rw [sleepOne_poll] at w
      simp only [List.length_append, List.length_cons, List.length_nil, List.append_assoc, List.cons_append,
        List.nil_append] at h1 h2
      refine ⟨pollReply (afterBusyPolls s pre) :: rest, ?_, ?_⟩
      · intro j r hj
        cases j with
        | zero =>
          obtain rfl : pollReply (afterBusyPolls s pre) = r := by simpa using hj
          exact ⟨by simp, hb⟩
        | succ j => simpa using h1 j r (by simpa using hj)
      · simp only [List.length_cons]
        rcases h2 with ⟨a, b, c⟩ | ⟨a, c⟩
        · exact .inl ⟨by omega, b, by rw [w, c]; congr 2; omega⟩
        · exact .inr ⟨by omega, by rw [w, c]; congr 2; omega⟩

/-- LAST_T and LAST_H are the same in both states. -/
def ReadingsKept (s t : State) : Prop := t.lastT = s.lastT ∧ t.lastH = s.lastH

/-- A byte read's event and response. -/
def ByteReadEffect (k : ReadKind) (reg : RegAddr) (s : State) (r : Response) (new : List BusEvent) : Prop :=
  ∃ reply : Option Byte, new = [s.readEvent k reg 1 (reply.map fun b => [b])] ∧
    r = match reply with
      | some b => ⟨.ok, zext32 b⟩
      | none => ⟨.busError, 0xFF#32⟩

/-- A CONFIG write's event and response. -/
def ConfigWriteEffect (data : Byte) (s : State) (r : Response) (new : List BusEvent) : Prop :=
  ∃ ok, new = [.write s.addr regConfig data ok] ∧ r = ⟨callStatus ok, boolValue ok⟩

/-- IS_CONVERTING's event and response. -/
def PollEffect (s : State) (r : Response) (new : List BusEvent) : Prop :=
  ∃ reply : Option Byte, new = [s.readEvent .isConverting regStatus 1 (reply.map fun b => [b])] ∧
    r = match reply with
      | some b => ⟨.ok, boolValue (busy s.params.rdyPolarity (some b))⟩
      | none => ⟨.busError, 1#32⟩

/-- WAIT_CONV's events and response: its busy polls, each with a sleep, and then a ready poll or 50 of them. -/
def WaitEffect (s : State) (r : Response) (new : List BusEvent) : Prop :=
  ∃ busies : List (Option Byte), (∀ b ∈ busies, busy s.params.rdyPolarity b = true) ∧
    ((busies.length < 50 ∧ r = ⟨.ok, BitVec.ofNat 32 busies.length⟩ ∧
        ∃ last, new = (busies.flatMap fun b => [pollEvent s b, .sleep]) ++ [pollEvent s last]) ∨
      (busies.length = 50 ∧ r = ⟨.timeout, 50#32⟩ ∧ new = busies.flatMap fun b => [pollEvent s b, .sleep]))

/-- READ_RESULT's events, response and stores: a failed read, or one of the two paths. -/
def ReadResultEffect (s t : State) (r : Response) (new : List BusEvent) : Prop :=
  (ReadingsKept s t ∧ r = ⟨.busError, sentU⟩ ∧
    (new = [s.readEvent .resultData regDataHigh 2 none] ∨
      ∃ b0 b1, new = [s.readEvent .resultData regDataHigh 2 (some [b0, b1]), s.readEvent .resultConfig regConfig 1 none])) ∨
  ∃ b0 b1 cfg, new = [s.readEvent .resultData regDataHigh 2 (some [b0, b1]),
      s.readEvent .resultConfig regConfig 1 (some [cfg])] ∧
    ((tempBit cfg = true ∧ t.lastT = BitVec.ofInt 32 (decodeT (adcCode b0 b1)) ∧ t.lastH = s.lastH ∧
        r = ⟨.ok, sext32 (roundTenth (decodeT (adcCode b0 b1)))⟩) ∨
      (tempBit cfg = false ∧ t.lastH = BitVec.ofInt 32 (decodeH (adcCode b0 b1)) ∧ t.lastT = s.lastT ∧
        r = ⟨.ok, sext32 (roundTenth (decodeH (adcCode b0 b1)))⟩))

/-- The effect of each command that answers `r`, records the events `new` and leads from `s` to `t`. -/
def ExecEffect (i : Instr) (s t : State) (r : Response) (new : List BusEvent) : Prop :=
  match i with
  | .getId => ReadingsKept s t ∧ ByteReadEffect .getId regId s r new
  | .getStatus => ReadingsKept s t ∧ ByteReadEffect .getStatus regStatus s r new
  | .getConfig => ReadingsKept s t ∧ ByteReadEffect .getConfig regConfig s r new
  | .setConfig cfg => ReadingsKept s t ∧ ConfigWriteEffect cfg s r new
  | .startTemp fast heat => ReadingsKept s t ∧ ConfigWriteEffect (cfgStart .temp fast heat) s r new
  | .startHum fast heat => ReadingsKept s t ∧ ConfigWriteEffect (cfgStart .hum fast heat) s r new
  | .isConverting => ReadingsKept s t ∧ PollEffect s r new
  | .waitConv => ReadingsKept s t ∧ WaitEffect s r new
  | .readResult => ReadResultEffect s t r new
  | .compHum hp => ReadingsKept s t ∧ new = [] ∧ r = ⟨.ok, compHumValue s.params.floatFormat hp s.lastT s.lastH⟩
  | .getLastTemp => ReadingsKept s t ∧ new = [] ∧ r = ⟨.ok, s.lastT⟩
  | .getLastHum => ReadingsKept s t ∧ new = [] ∧ r = ⟨.ok, s.lastH⟩

/-- What every command does to the fields that no command treats specially. -/
def CommonEffect (s t : State) (r : Response) (new : List BusEvent) : Prop :=
  RespondsWith s t r ∧ t.trace = s.trace ++ new ∧ t.params = s.params ∧ t.program = s.program ∧ t.addr = s.addr

theorem byteRead_effect (k : ReadKind) (reg : RegAddr) (s : State) : ∃ r new,
    CommonEffect s (byteReadCommand k reg s) r new ∧ ReadingsKept s (byteReadCommand k reg s) ∧
      ByteReadEffect k reg s r new := by
  rcases byteReadCommand_cases k reg s with ⟨b, e⟩ | e <;> rw [e]
  · exact ⟨_, _, ⟨⟨rfl, rfl⟩, rfl, rfl, rfl, rfl⟩, ⟨rfl, rfl⟩, some b, rfl, rfl⟩
  · exact ⟨_, _, ⟨⟨rfl, rfl⟩, rfl, rfl, rfl, rfl⟩, ⟨rfl, rfl⟩, none, rfl, rfl⟩

theorem configWrite_effect (data : Byte) (s : State) : ∃ r new,
    CommonEffect s (configWriteCommand data s) r new ∧ ReadingsKept s (configWriteCommand data s) ∧
      ConfigWriteEffect data s r new := by
  rcases configWriteCommand_cases data s with e | e <;> rw [e]
  · exact ⟨_, _, ⟨⟨rfl, rfl⟩, rfl, rfl, rfl, rfl⟩, ⟨rfl, rfl⟩, true, rfl, rfl⟩
  · exact ⟨_, _, ⟨⟨rfl, rfl⟩, rfl, rfl, rfl, rfl⟩, ⟨rfl, rfl⟩, false, rfl, rfl⟩

theorem poll_effect (s : State) : ∃ r new,
    CommonEffect s (pollCommand s) r new ∧ ReadingsKept s (pollCommand s) ∧ PollEffect s r new := by
  rcases pollCommand_cases s with ⟨b, e⟩ | e <;> rw [e]
  · exact ⟨_, _, ⟨⟨rfl, rfl⟩, rfl, rfl, rfl, rfl⟩, ⟨rfl, rfl⟩, some b, rfl, rfl⟩
  · exact ⟨_, _, ⟨⟨rfl, rfl⟩, rfl, rfl, rfl, rfl⟩, ⟨rfl, rfl⟩, none, rfl, rfl⟩

theorem wait_effect (s : State) : ∃ r new,
    CommonEffect s (waitLoop timeoutUnits 0 s) r new ∧ ReadingsKept s (waitLoop timeoutUnits 0 s) ∧
      WaitEffect s r new := by
  obtain ⟨busies, h2, h3⟩ := waitLoop_spec 50 s []
  simp only [afterBusyPolls_nil, List.nil_append, List.length_nil, Nat.zero_add] at h2 h3
  have hb : ∀ b ∈ busies, busy s.params.rdyPolarity b = true := by
    intro b hm
    obtain ⟨j, hj⟩ := List.getElem?_of_mem hm
    exact (h2 j b hj).2
  rcases h3 with ⟨a, _, c⟩ | ⟨a, c⟩ <;> simp only [timeoutUnits, c]
  · exact ⟨_, _, ⟨⟨rfl, rfl⟩, List.append_assoc _ _ _, rfl, rfl, rfl⟩, ⟨rfl, rfl⟩, busies, hb, .inl ⟨a, rfl, _, rfl⟩⟩
  · exact ⟨_, _, ⟨⟨rfl, rfl⟩, rfl, rfl, rfl, rfl⟩, ⟨rfl, rfl⟩, busies, hb, .inr ⟨a, rfl, rfl⟩⟩

theorem readResult_effect (s : State) : ∃ r new,
    CommonEffect s (readResultCommand s) r new ∧ ReadResultEffect s (readResultCommand s) r new := by
  rcases readResultCommand_cases s with e | ⟨b0, b1, e⟩ | ⟨b0, b1, cfg, e⟩ <;> rw [e]
  · exact ⟨_, _, ⟨⟨rfl, rfl⟩, rfl, rfl, rfl, rfl⟩, .inl ⟨⟨rfl, rfl⟩, rfl, .inl rfl⟩⟩
  · exact ⟨_, _, ⟨⟨rfl, rfl⟩, List.append_assoc _ _ _, rfl, rfl, rfl⟩, .inl ⟨⟨rfl, rfl⟩, rfl, .inr ⟨b0, b1, rfl⟩⟩⟩
  · rcases storeResult_cases cfg (adcCode b0 b1)
      ((s.afterCall (s.readEvent .resultData regDataHigh 2 (some [b0, b1]))).afterCall
        (s.readEvent .resultConfig regConfig 1 (some [cfg]))) with ⟨hc, e'⟩ | ⟨hc, e'⟩ <;> rw [e']
    · exact ⟨_, _, ⟨⟨rfl, rfl⟩, List.append_assoc _ _ _, rfl, rfl, rfl⟩,
        .inr ⟨b0, b1, cfg, rfl, .inl ⟨hc, rfl, rfl, rfl⟩⟩⟩
    · exact ⟨_, _, ⟨⟨rfl, rfl⟩, List.append_assoc _ _ _, rfl, rfl, rfl⟩,
        .inr ⟨b0, b1, cfg, rfl, .inr ⟨hc, rfl, rfl, rfl⟩⟩⟩

theorem respond_effect (r : Response) (s : State) :
    CommonEffect s (respond r.status r.value s) r [] ∧ ReadingsKept s (respond r.status r.value s) :=
  ⟨⟨⟨rfl, rfl⟩, (List.append_nil _).symm, rfl, rfl, rfl⟩, rfl, rfl⟩

/-- Every command that answers a next state: one response, its events after the trace, ADDR, the parameters and the
host's sequence unchanged, and its own effect. -/
theorem exec_effect {i : Instr} {s t : State} (h : exec i s = .next t) : ∃ r new,
    CommonEffect s t r new ∧ ExecEffect i s t r new := by
  cases i with
  | getId => cases h; exact byteRead_effect .getId regId s
  | getStatus => cases h; exact byteRead_effect .getStatus regStatus s
  | getConfig => cases h; exact byteRead_effect .getConfig regConfig s
  | setConfig cfg => cases h; exact configWrite_effect cfg s
  | startTemp fast heat => cases h; exact configWrite_effect (cfgStart .temp fast heat) s
  | startHum fast heat => cases h; exact configWrite_effect (cfgStart .hum fast heat) s
  | isConverting => cases h; exact poll_effect s
  | waitConv => cases h; exact wait_effect s
  | readResult => cases h; exact readResult_effect s
  | compHum hp => cases h; exact ⟨_, [], (respond_effect ⟨.ok, _⟩ s).1, ⟨rfl, rfl⟩, rfl, rfl⟩
  | getLastTemp => cases h; exact ⟨_, [], (respond_effect ⟨.ok, _⟩ s).1, ⟨rfl, rfl⟩, rfl, rfl⟩
  | getLastHum => cases h; exact ⟨_, [], (respond_effect ⟨.ok, _⟩ s).1, ⟨rfl, rfl⟩, rfl, rfl⟩

/-! ### The history -/

theorem history_append {s t : State} {w : CmdWord} {r : Response} (hr : ResponsesMatchPc s) (hf : s.program[s.pc]? = some w)
    (ht : RespondsWith s t r) (hp : t.program = s.program) : t.history = s.history ++ [(w, r)] := by
  obtain ⟨h1, h2⟩ := ht
  have hlt : s.pc < s.program.length := by
    by_contra hh
    rw [List.getElem?_eq_none (by omega)] at hf; cases hf
  have hw : s.program[s.pc] = w := by
    rw [List.getElem?_eq_getElem hlt] at hf; exact Option.some.inj hf
  simp only [State.history, h1, h2, hp]
  rw [List.take_add_one, List.getElem?_eq_getElem hlt, hw]
  simp only [Option.toList_some]
  rw [List.zip_append (by simp [hr.1]; omega)]
  rfl

theorem phase_append {s t : State} {w : CmdWord} {r : Response} (hr : ResponsesMatchPc s) (hf : s.program[s.pc]? = some w)
    (ht : RespondsWith s t r) (hp : t.program = s.program) : t.phase = phaseAfter s.phase (w, r) := by
  simp [State.phase, history_append hr hf ht hp, phaseOf]

/-! ### The last CONFIG write of a trace -/

theorem lastConfigWrite_append_write (tr : List BusEvent) (dev : DevAddr) (reg : RegAddr) (data : Byte) (ok : Bool) :
    lastConfigWrite (tr ++ [.write dev reg data ok]) = some (data, ok) := by
  simp [lastConfigWrite]

theorem lastConfigWrite_append_other (tr new : List BusEvent)
    (h : NoConfigWriteBetween new) : lastConfigWrite (tr ++ new) = lastConfigWrite tr := by
  induction new generalizing tr with
  | nil => simp
  | cons e new ih =>
    have hn : NoConfigWriteBetween new := fun a b c d he => h a b c d (List.mem_cons_of_mem _ he)
    rw [show tr ++ e :: new = (tr ++ [e]) ++ new by simp, ih (tr ++ [e]) hn]
    cases e with
    | write a b c d => exact absurd (List.mem_cons_self) (h a b c d)
    | read _ _ _ _ _ => simp [lastConfigWrite]
    | sleep => simp [lastConfigWrite]

end Sys2Proof.Machine
end

