-- ==== Sys2Proof/Laws/Float.lean ====
section
/-! SUPPORT. The rounding `fl`: powers of two, the place of the last bit, the half-ulp bound, and signs. -/

namespace Sys2Proof.Machine

theorem pow2_eq (e : Int) : pow2 e = (2 : Rat) ^ e := by
  cases e with
  | ofNat k => simp [pow2, Rat.mkRat_eq_div]
  | negSucc k => simp [pow2, Rat.mkRat_eq_div, zpow_negSucc]

theorem pow2_pos (e : Int) : 0 < pow2 e := by
  rw [pow2_eq]; positivity

@[simp] theorem litHalf_eq : litHalf = 1 / 2 := by
  simp [litHalf, Rat.mkRat_eq_div]

/-- The nearest integer is no further than a half. -/
theorem nearestEven_error (y : Rat) : |y - (nearestEven y : Rat)| ≤ 1 / 2 := by
  have h1 : ((y.floor : Int) : Rat) ≤ y := Int.floor_le y
  have h2 : y < (y.floor : Rat) + 1 := Int.lt_floor_add_one y
  rw [abs_le]
  simp only [nearestEven, litHalf_eq]
  split_ifs <;> push_cast <;> constructor <;> linarith

/-- Zero and signs: the rounding is symmetric. -/
@[simp] theorem fl_zero (F : FloatFormat) : fl F 0 = 0 := by simp [fl]

theorem fl_neg (F : FloatFormat) (x : Rat) : fl F (-x) = -fl F x := by
  rcases lt_trichotomy x 0 with h | h | h
  · simp [fl, h, h.ne, not_lt.mpr h.le]
  · simp [h]
  · simp [fl, h, h.ne', not_lt.mpr h.le]

/-- The rounding of a positive number is off by at most half of its last place. -/
theorem flPos_error (F : FloatFormat) (x : Rat) : |x - flPos F x| ≤ pow2 (lastPlace F x) / 2 := by
  have hp := pow2_pos (lastPlace F x)
  have h := nearestEven_error (x / pow2 (lastPlace F x))
  have e : x - flPos F x =
      (x / pow2 (lastPlace F x) - (nearestEven (x / pow2 (lastPlace F x)) : Rat)) * pow2 (lastPlace F x) := by
    rw [flPos, sub_mul, div_mul_cancel₀ x hp.ne']
  rw [e, abs_mul, abs_of_pos hp]
  calc _ ≤ 1 / 2 * pow2 (lastPlace F x) := mul_le_mul_of_nonneg_right h hp.le
    _ = pow2 (lastPlace F x) / 2 := by ring

/-- The rounding is off by at most half of the last place of |x|. -/
theorem fl_error (F : FloatFormat) (x : Rat) : |x - fl F x| ≤ pow2 (lastPlace F |x|) / 2 := by
  rcases lt_trichotomy x 0 with h | h | h
  · have := flPos_error F (-x)
    rw [abs_of_neg h]
    have e : x - fl F x = -(-x - flPos F (-x)) := by simp [fl, h, h.ne]; ring
    rwa [e, abs_neg]
  · subst h; simpa using (half_pos (pow2_pos (lastPlace F 0))).le
  · rw [abs_of_pos h]
    have e : fl F x = flPos F x := by simp [fl, h.ne', not_lt.mpr h.le]
    rw [e]; exact flPos_error F x

/-- `floorLog2` is the exponent of the power of two at or below x. -/
theorem floorLog2_spec (x : Rat) (hx : 0 < x) : pow2 (floorLog2 x) ≤ x ∧ x < pow2 (floorLog2 x + 1) := by
  have hn : x.num.natAbs ≠ 0 := by
    have := Rat.num_pos.mpr hx
    omega
  have hd : x.den ≠ 0 := x.den_nz
  have hx' : x = (x.num.natAbs : Rat) / (x.den : Rat) := by
    have h1 : ((x.num.natAbs : Nat) : Int) = x.num := Int.natAbs_of_nonneg (Rat.num_pos.mpr hx).le
    have h2 : ((x.num.natAbs : Nat) : Rat) = (x.num : Rat) := by
      rw [← h1, Int.cast_natCast, h1]
    rw [h2, Rat.num_div_den x]
  have n1 : ((2 ^ Nat.log2 x.num.natAbs : Nat) : Rat) ≤ (x.num.natAbs : Rat) := by
    exact_mod_cast Nat.log2_self_le hn
  have n2 : (x.num.natAbs : Rat) < ((2 ^ (Nat.log2 x.num.natAbs + 1) : Nat) : Rat) := by
    exact_mod_cast Nat.lt_log2_self
  have d1 : ((2 ^ Nat.log2 x.den : Nat) : Rat) ≤ (x.den : Rat) := by
    exact_mod_cast Nat.log2_self_le hd
  have d2 : (x.den : Rat) < ((2 ^ (Nat.log2 x.den + 1) : Nat) : Rat) := by
    exact_mod_cast Nat.lt_log2_self
  have dpos : (0 : Rat) < (x.den : Rat) := by exact_mod_cast Nat.pos_of_ne_zero hd
  have hdef : floorLog2 x = if x < pow2 ((Nat.log2 x.num.natAbs : Int) - (Nat.log2 x.den : Int))
      then (Nat.log2 x.num.natAbs : Int) - (Nat.log2 x.den : Int) - 1
      else (Nat.log2 x.num.natAbs : Int) - (Nat.log2 x.den : Int) := rfl
  generalize Nat.log2 x.num.natAbs = a at *
  generalize Nat.log2 x.den = b at *
  have two : (2 : Rat) ≠ 0 := by norm_num
  have lower : (2 : Rat) ^ ((a : Int) - b - 1) < x := by
    rw [hx', lt_div_iff₀ dpos]
    push_cast at n1 d2
    calc (2 : Rat) ^ ((a : Int) - b - 1) * (x.den : Rat)
        < (2 : Rat) ^ ((a : Int) - b - 1) * 2 ^ (b + 1) := by
          apply mul_lt_mul_of_pos_left d2; positivity
      _ = 2 ^ a := by
          rw [← zpow_natCast, ← zpow_natCast, ← zpow_add₀ two]; congr 1; push_cast; ring
      _ ≤ _ := n1
  have upper : x < (2 : Rat) ^ ((a : Int) - b + 1) := by
    rw [hx', div_lt_iff₀ dpos]
    push_cast at n2 d1
    calc (x.num.natAbs : Rat) < 2 ^ (a + 1) := n2
      _ = (2 : Rat) ^ ((a : Int) - b + 1) * 2 ^ b := by
          rw [← zpow_natCast, ← zpow_natCast, ← zpow_add₀ two]; congr 1; push_cast; ring
      _ ≤ _ := by apply mul_le_mul_of_nonneg_left d1; positivity
  rw [hdef]
  split_ifs with h
  · rw [pow2_eq, pow2_eq]
    rw [pow2_eq] at h
    exact ⟨lower.le, by rwa [sub_add_cancel]⟩
  · rw [pow2_eq, pow2_eq]
    rw [pow2_eq] at h
    exact ⟨not_lt.mp h, upper⟩

end Sys2Proof.Machine
end

