-- ==== Sys2Proof/Laws/PerInstr.lean ====
section
/-! SUPPORT. Statements made instruction by instruction: the family EncodingShape. -/

namespace Sys2Proof.Laws.EncodingShape

/-- The word of a command holds its OP and its operand byte, and sets no reserved bit (30_encoding.md R60). -/
def Statement (i : Instr) : Prop :=
  i.wf = true ∧ opField (encode i) = i.opcode ∧ opdField (encode i) = i.operandByte

theorem getId : Statement .getId := ⟨by decide, by simp, by simp⟩
theorem getStatus : Statement .getStatus := ⟨by decide, by simp, by simp⟩
theorem getConfig : Statement .getConfig := ⟨by decide, by simp, by simp⟩
theorem setConfig (cfg : Byte) : Statement (.setConfig cfg) := ⟨i8_wf cfg, by simp, by simp⟩
theorem startTemp (fast heat : Bool) : Statement (.startTemp fast heat) := ⟨fhByte_wf fast heat, by simp, by simp⟩
theorem startHum (fast heat : Bool) : Statement (.startHum fast heat) := ⟨fhByte_wf fast heat, by simp, by simp⟩
theorem isConverting : Statement .isConverting := ⟨by decide, by simp, by simp⟩
theorem waitConv : Statement .waitConv := ⟨by decide, by simp, by simp⟩
theorem readResult : Statement .readResult := ⟨by decide, by simp, by simp⟩
theorem compHum (hp : Bool) : Statement (.compHum hp) := ⟨hpByte_wf hp, by simp, by simp⟩
theorem getLastTemp : Statement .getLastTemp := ⟨by decide, by simp, by simp⟩
theorem getLastHum : Statement .getLastHum := ⟨by decide, by simp, by simp⟩

end Sys2Proof.Laws.EncodingShape
end

