-- ==== Sys2Proof/Tests/Slice0.lean ====
section
/-! SUPPORT. The model's own tests. Expected values come from spec/: the encoding tables of 30_encoding.md and the vectors
of 95_test_vectors.md, whose names (V-RA-1, …) stand in the comments. After them, a witness for each statement that has
hypotheses. -/

namespace Sys2Proof.Tests

open Sys2Proof Sys2Proof.Machine

/-! ### Helpers -/

/-- The state after reset, with the device's answers to come. -/
def withAnswers (as : List Answer) : State := { State.reset with answers := as }

/-- The same with RDY_POLARITY = READY_LOW. -/
def lowPolarity (as : List Answer) : State :=
  { State.resetWith ⟨0x40#7, .readyLow, .binary64⟩ with answers := as }

/-- The state after reset, with the host's sequence. -/
def withWords (ws : List CmdWord) : State := { State.reset with program := ws }

/-- Stored readings and a format. -/
def withReadings (F : FloatFormat) (t h : Int) : State :=
  { State.resetWith ⟨0x40#7, .readyHigh, F⟩ with lastT := BitVec.ofInt 32 t, lastH := BitVec.ofInt 32 h }

/-- A state whose history has one completed command, with the next word to come. -/
def afterOne (w : CmdWord) (r : Response) (next : CmdWord) (tr : List BusEvent) (as : List Answer) : State :=
  { State.reset with program := [w, next], pc := 1, responses := [r], trace := tr, answers := as }

/-- One outcome's latest response. -/
def answered (o : Host.Outcome State Fault Refusal) : Option Response :=
  match o with
  | .next s => s.lastResponse
  | .fault _ => none
  | .refused _ => none

/-- One outcome's next state, the state after reset where there is none. -/
def after (o : Host.Outcome State Fault Refusal) : State :=
  match o with
  | .next s => s
  | .fault _ => State.reset
  | .refused _ => State.reset

/-- The number of reads and of sleeps on a trace. -/
def readsAndSleeps (tr : List BusEvent) : Nat × Nat :=
  tr.foldl (fun n e => match e with
    | .read _ _ _ _ _ => (n.1 + 1, n.2)
    | .write _ _ _ _ => n
    | .sleep => (n.1, n.2 + 1)) (0, 0)

/-! ### Well-formedness: each format's check refuses an ill-formed byte -/

theorem test_wf_z_refuses : Format.z.operandWf 0x01#8 = false := by decide
theorem test_wf_fh_refuses : Format.fh.operandWf 0x10#8 = false ∧ Format.fh.operandWf 0x80#8 = false := by decide
theorem test_wf_p_refuses : Format.p.operandWf 0x02#8 = false := by decide
theorem test_wf_i8_accepts : Format.i8.operandWf 0xFF#8 = true := by decide

/-! ### Decoding: words written out bit by bit from spec/opcode_table.json -/

theorem test_decode_getId : decode 0b00000001_00000000#16 = some .getId := by decide
theorem test_decode_getStatus : decode 0b00000010_00000000#16 = some .getStatus := by decide
theorem test_decode_getConfig : decode 0b00000011_00000000#16 = some .getConfig := by decide
theorem test_decode_setConfig : decode 0b00000100_00010011#16 = some (.setConfig 0x13#8) := by decide
theorem test_decode_startTemp :
    decode 0b00010000_00100000#16 = some (.startTemp true false) ∧
    decode 0b00010000_00000010#16 = some (.startTemp false true) := by decide
theorem test_decode_startHum :
    decode 0b00010001_00100000#16 = some (.startHum true false) ∧
    decode 0b00010001_00000010#16 = some (.startHum false true) := by decide
theorem test_decode_isConverting : decode 0b00010010_00000000#16 = some .isConverting := by decide
theorem test_decode_waitConv : decode 0b00010011_00000000#16 = some .waitConv := by decide
theorem test_decode_readResult : decode 0b00010100_00000000#16 = some .readResult := by decide
theorem test_decode_compHum :
    decode 0b00100000_00000000#16 = some (.compHum false) ∧ decode 0b00100000_00000001#16 = some (.compHum true) := by decide
theorem test_decode_getLastTemp : decode 0b00100001_00000000#16 = some .getLastTemp := by decide
theorem test_decode_getLastHum : decode 0b00100010_00000000#16 = some .getLastHum := by decide

/-- The illegal words of 95_test_vectors.md section 2.1. -/
theorem test_decode_illegal :
    ([0x0000#16, 0x0101#16, 0x0500#16, 0x1001#16, 0x1010#16, 0x1080#16, 0x1104#16, 0x1301#16, 0x1500#16, 0x2002#16,
      0x2300#16, 0xFFFF#16].all fun w => decode w == none) = true := by decide

theorem test_decode_rejects_by_name :
    decodeNamed 0x0500#16 = .error (.unassignedOpcode 0x05#8) ∧
    decodeNamed 0x1301#16 = .error (.reservedOperandBits 0x13#8 0x01#8) := ⟨rfl, rfl⟩

theorem test_decodeBytes_op_first : decodeBytes [0x04#8, 0x11#8] = some (.setConfig 0x11#8) := by decide
theorem test_decodeTableWord : decodeTableWord 16 0x1022 = some (.startTemp true true) := by decide

/-! ### Register access (95_test_vectors.md section 2.2) -/

-- V-RA-1, V-RA-3
theorem test_getId :
    answered (exec .getId (withAnswers [.ok 0x3C#8 0#8])) = some ⟨.ok, 0x3C#32⟩ ∧
    answered (exec .getId (withAnswers [.err])) = some ⟨.busError, 0xFF#32⟩ := by decide
theorem test_getId_event : (after (exec .getId (withAnswers [.ok 0x3C#8 0#8]))).trace =
    [.read 0x40#7 0x11#8 1 (Config.readHold .getId) (some [0x3C#8])] := rfl
-- V-RA-6, V-RA-7
theorem test_getStatus :
    answered (exec .getStatus (withAnswers [.ok 0xFE#8 0#8])) = some ⟨.ok, 0xFE#32⟩ ∧
    answered (exec .getStatus (withAnswers [.err])) = some ⟨.busError, 0xFF#32⟩ := by decide
-- V-RA-8, V-RA-9
theorem test_getConfig :
    answered (exec .getConfig (withAnswers [.ok 0x11#8 0#8])) = some ⟨.ok, 0x11#32⟩ ∧
    answered (exec .getConfig (withAnswers [.err])) = some ⟨.busError, 0xFF#32⟩ := by decide
-- V-RA-11, V-RA-12
theorem test_setConfig :
    answered (exec (.setConfig 0xFF#8) (withAnswers [.ok 0#8 0#8])) = some ⟨.ok, 1#32⟩ ∧
    answered (exec (.setConfig 0x13#8) (withAnswers [.err])) = some ⟨.busError, 0#32⟩ := by decide
theorem test_setConfig_event : (after (exec (.setConfig 0x13#8) (withAnswers [.err]))).trace =
    [.write 0x40#7 0x03#8 0x13#8 false] := by decide

/-! ### Conversion sequencing (95_test_vectors.md section 2.3) -/

-- words 0x1022 and 0x1122
theorem test_startTemp_event : (after (exec (.startTemp true true) (withAnswers [.ok 0#8 0#8]))).trace =
    [.write 0x40#7 0x03#8 0x33#8 true] := by decide
theorem test_startHum_event : (after (exec (.startHum true true) (withAnswers [.ok 0#8 0#8]))).trace =
    [.write 0x40#7 0x03#8 0x23#8 true] := by decide
-- V-SQ-1 to V-SQ-4
theorem test_isConverting :
    ([.ok 0x00#8 0#8, .ok 0x01#8 0#8, .ok 0xFF#8 0#8, .err].map fun a => answered (exec .isConverting (withAnswers [a]))) =
      [some ⟨.ok, 1#32⟩, some ⟨.ok, 0#32⟩, some ⟨.ok, 0#32⟩, some ⟨.busError, 1#32⟩] := by decide
-- V-SQ-5
theorem test_isConverting_readyLow :
    answered (exec .isConverting (lowPolarity [.ok 0x01#8 0#8])) = some ⟨.ok, 1#32⟩ := by decide
-- V-SQ-7, V-SQ-8
theorem test_waitConv_ready :
    answered (exec .waitConv (withAnswers [.ok 0#8 0#8, .ok 0#8 0#8, .ok 1#8 0#8])) = some ⟨.ok, 2#32⟩ ∧
    answered (exec .waitConv (withAnswers [.err, .ok 1#8 0#8])) = some ⟨.ok, 1#32⟩ := by decide
-- V-SQ-9, V-SQ-10, V-SQ-11: the edges of the loop
theorem test_waitConv_edges :
    let last := after (exec .waitConv (withAnswers (List.replicate 49 (.ok 0#8 0#8) ++ [.ok 1#8 0#8])))
    let never := after (exec .waitConv (withAnswers (List.replicate 51 (.ok 0#8 0#8))))
    let dead := after (exec .waitConv (withAnswers (List.replicate 50 .err)))
    last.lastResponse = some ⟨.ok, 49#32⟩ ∧ readsAndSleeps last.trace = (50, 49) ∧
    never.lastResponse = some ⟨.timeout, 50#32⟩ ∧ readsAndSleeps never.trace = (50, 50) ∧ never.answers.length = 1 ∧
    dead.lastResponse = some ⟨.timeout, 50#32⟩ ∧ readsAndSleeps dead.trace = (50, 50) := by
  decide +kernel

/-- The ghost phase sequence of 95_test_vectors.md section 2.3. -/
theorem test_phase_sequence :
    let h : List (CmdWord × Response) := [(0x1100#16, ⟨.ok, 1#32⟩), (0x1300#16, ⟨.timeout, 50#32⟩),
      (0x1200#16, ⟨.ok, 0#32⟩), (0x0400#16, ⟨.ok, 1#32⟩), (0x1000#16, ⟨.ok, 1#32⟩), (0x1300#16, ⟨.ok, 3#32⟩),
      (0x1400#16, ⟨.ok, 213#32⟩)]
    ((List.range 8).map fun n => phaseOf (h.take n)) =
      [.idle, .converting .hum, .timedOut .hum, .ready .hum, .unknown, .converting .temp, .ready .temp, .idle] := by
  decide

/-! ### Measurement (95_test_vectors.md section 2.4) -/

-- V-RR-1, V-RR-4
theorem test_readResult_paths :
    let t := after (exec .readResult (withAnswers [.ok 0x23#8 0xAC#8, .ok 0x10#8 0#8]))
    let h := after (exec .readResult (withAnswers [.ok 0x19#8 0x00#8, .ok 0xEF#8 0#8]))
    t.lastResponse = some ⟨.ok, 213#32⟩ ∧ t.lastT = 2134#32 ∧ t.lastH = 1111#32 ∧
    h.lastResponse = some ⟨.ok, 10#32⟩ ∧ h.lastH = 100#32 ∧ h.lastT = 55555#32 := by decide
-- V-RR-5, V-RR-6, V-RR-7
theorem test_readResult_negative_and_errors :
    answered (exec .readResult (withAnswers [.ok 0#8 0#8, .ok 0x10#8 0#8])) = some ⟨.ok, 0xFFFFFE0C#32⟩ ∧
    answered (exec .readResult (withAnswers [.err])) = some ⟨.busError, 0x3039#32⟩ ∧
    answered (exec .readResult (withAnswers [.ok 0x23#8 0xAC#8, .err])) = some ⟨.busError, 0x3039#32⟩ := by decide
-- V-DT-3, V-DT-6, V-DT-7, V-DT-14 and V-DH-2, V-DH-5, V-DH-15
theorem test_decode_vectors :
    ([0x18A0, 0x18FC, 0x1900, 0xFFFC].map decodeT) = [-75, -4, 0, 46196] ∧
    ([0x16C0, 0x17F0, 0xFFF0].map decodeH) = [-125, -7, 23193] := by decide
-- the table of R10
theorem test_roundTenth : ([-5000, -75, -25, -15, -5, -4, 4, 5, 15, 25, 46196].map roundTenth) =
    [-500, -8, -3, -2, -1, 0, 0, 1, 2, 3, 4620] := by decide
-- W1, and the corner 0.49999999999999994, which gives 1
theorem test_roundHelper :
    ([mkRat 1 2, mkRat (-1) 2, mkRat 24 10, mkRat 25 10, mkRat (-25) 10, 0, mkRat 3 2, mkRat (-3) 2].map
      fun y => roundHelper .binary64 (toFLit .binary64 y)) = [1, -1, 2, 3, -3, 0, 2, -2] ∧
    roundHelper .binary64 (mkRat 1 2 - mkRat 1 (2 ^ 54)) = 1 := by decide +kernel

/-! ### Compensation (95_test_vectors.md section 2.5) -/

-- V-CH-1, V-CH-4, V-CH-19
theorem test_compHum :
    answered (exec (.compHum true) (withReadings .binary64 2500 100)) = some ⟨.ok, 433#32⟩ ∧
    answered (exec (.compHum false) (withReadings .binary64 2500 100)) = some ⟨.ok, 43#32⟩ ∧
    answered (exec (.compHum true) (withReadings .binary64 55555 (-2400))) = some ⟨.ok, 0xFFFFFD23#32⟩ ∧
    answered (exec (.compHum true) State.reset) = some ⟨.ok, 1111#32⟩ := by decide +kernel
-- V-CH-16: the results depend on FLOAT_FORMAT
theorem test_compHum_formats :
    ([FloatFormat.binary64, .binary32].map fun F =>
      (answered (exec (.compHum true) (withReadings F (-4960) 12731)),
        answered (exec (.compHum false) (withReadings F (-4960) 12731)))) =
      [(some ⟨.ok, 10174#32⟩, some ⟨.ok, 1017#32⟩), (some ⟨.ok, 10175#32⟩, some ⟨.ok, 1018#32⟩)] := by decide +kernel

/-! ### Accessors (95_test_vectors.md section 2.6), the step and the assembler -/

-- V-AC-2, V-AC-5
theorem test_getLastTemp :
    answered (exec .getLastTemp (withReadings .binary64 (-5000) 0)) = some ⟨.ok, 0xFFFFEC78#32⟩ := by decide
theorem test_getLastHum :
    answered (exec .getLastHum (withReadings .binary64 0 (-2400))) = some ⟨.ok, 0xFFFFF6A0#32⟩ := by decide
-- P3, pc 5
theorem test_step_illegal : step (withWords [0x1301#16]) =
    .next { withWords [0x1301#16] with responses := [⟨.illegalCommand, 0#32⟩], pc := 1 } := rfl
theorem test_step_idle : step State.reset = .next State.reset := rfl
theorem test_step_fetches_placed_word :
    answered (step (State.reset.withFetchWord 16 0x2100)) = some ⟨.ok, 0x0000D903#32⟩ := by decide

theorem test_disassemble :
    disassemble 0x1122#16 = "START_HUM fast=1, heat=1".toList ∧ disassemble 0x04FF#16 = "SET_CONFIG 0xFF".toList ∧
    disassemble 0x1301#16 = ".word 0x1301".toList := by decide +kernel
theorem test_assemble :
    assembleText "  START_TEMP heat=1 ; on".toList = some [0x1002#16] ∧
    assembleText "SET_CONFIG 19".toList = some [0x0413#16] ∧ assembleText "; nothing".toList = some [] ∧
    assembleText "COMP_HUM".toList = some [0x2000#16] ∧ assembleText "GET_ID 3".toList = none ∧
    assembleProgram ["MEASURE_HUM fast=1".toList, "GET_LAST_HUM".toList] =
      some [0x1120#16, 0x1300#16, 0x1400#16, 0x2200#16] := by decide +kernel

/-! ### Witnesses: a state and operands that meet each statement's hypotheses, clause by clause -/

theorem witness_EncodeOfDecode : decode 0x1022#16 = some (.startTemp true true) := by decide

theorem witness_StepRuns :
    ((withWords [0x1400#16]).program[(withWords [0x1400#16]).pc]? = some 0x1400#16 ∧ decode 0x1400#16 = some .readResult) ∧
    State.reset.program[State.reset.pc]? = none := by decide

theorem witness_IllegalWord :
    (withWords [0x1301#16]).program[(withWords [0x1301#16]).pc]? = some 0x1301#16 ∧ decode 0x1301#16 = none ∧
    ResponsesMatchPc (withWords [0x1301#16]) ∧ ∃ t, step (withWords [0x1301#16]) = .next t :=
  ⟨by decide, by decide, ⟨by decide, by decide⟩, _, rfl⟩

theorem witness_PcAdvances :
    (∃ t, step (withWords [0x0000#16]) = .next t) ∧ (withWords [0x0000#16]).pc < (withWords [0x0000#16]).program.length ∧
    (∃ t, step State.reset = .next t) ∧ State.reset.program.length ≤ State.reset.pc :=
  ⟨⟨_, rfl⟩, by decide, ⟨_, rfl⟩, by decide⟩

/-- Both outcomes of any call, whatever the call: the hypotheses of the statements on GET_ID, GET_STATUS, GET_CONFIG,
SET_CONFIG, START_TEMP, START_HUM and IS_CONVERTING. -/
theorem witness_BusOutcomes (c : BusCall) :
    (withAnswers [.ok 0xFF#8 0#8]).answerTo c = .ok 0xFF#8 0#8 ∧ (withAnswers [.err]).answerTo c = .err := ⟨rfl, rfl⟩

theorem witness_Timeout : ∃ t, exec .waitConv (withAnswers (List.replicate 50 .err)) = .next t ∧
    RespondsWith (withAnswers (List.replicate 50 .err)) t ⟨.timeout, 50#32⟩ :=
  ⟨_, rfl, by constructor <;> decide +kernel⟩

theorem witness_Heater (i : Instr) : ∃ t, exec i State.reset = .next t := by cases i <;> exact ⟨_, rfl⟩

/-- The hypotheses of PhaseFollowsTheTable before each kind of row: a first command, and a command after a successful start,
after a timeout, and in IDLE. -/
theorem witness_PhaseTable :
    (ResponsesMatchPc (withWords [0x1000#16]) ∧ (withWords [0x1000#16]).phase = .idle) ∧
    (let s := afterOne 0x1000#16 ⟨.ok, 1#32⟩ 0x1300#16 [.write 0x40#7 0x03#8 0x11#8 true] (List.replicate 50 .err)
     ResponsesMatchPc s ∧ s.program[s.pc]? = some 0x1300#16 ∧ s.phase = .converting .temp ∧
        (after (step s)).phase = .timedOut .temp) ∧
    (let s := afterOne 0x1000#16 ⟨.ok, 1#32⟩ 0x1200#16 [.write 0x40#7 0x03#8 0x11#8 true] [.ok 1#8 0#8]
     ResponsesMatchPc s ∧ s.phase = .converting .temp ∧ (after (step s)).phase = .ready .temp) ∧
    (let s := afterOne 0x1000#16 ⟨.ok, 1#32⟩ 0x0400#16 [.write 0x40#7 0x03#8 0x11#8 true] [.ok 0#8 0#8]
     (after (step s)).phase = .unknown) ∧
    (let s := afterOne 0x1000#16 ⟨.ok, 1#32⟩ 0x0401#16 [.write 0x40#7 0x03#8 0x11#8 true] [.ok 0#8 0#8]
     (after (step s)).phase = .converting .hum) ∧
    (let s := afterOne 0x1000#16 ⟨.ok, 1#32⟩ 0x1100#16 [.write 0x40#7 0x03#8 0x11#8 true] [.err]
     (after (step s)).phase = .unknown) ∧
    (let s := afterOne 0x1000#16 ⟨.ok, 1#32⟩ 0x1400#16 [.write 0x40#7 0x03#8 0x11#8 true] [.ok 0#8 0#8, .ok 0x10#8 0#8]
     (after (step s)).phase = .idle) ∧
    (let s := afterOne 0x1000#16 ⟨.ok, 1#32⟩ 0x1400#16 [.write 0x40#7 0x03#8 0x11#8 true] [.err]
     (after (step s)).phase = .converting .temp) := by
  refine ⟨⟨⟨?_, ?_⟩, ?_⟩, ⟨⟨?_, ?_⟩, ?_, ?_, ?_⟩, ⟨⟨?_, ?_⟩, ?_, ?_⟩, ?_, ?_, ?_, ?_, ?_⟩ <;> decide +kernel

/-- Its rows that leave the phase alone: a busy IS_CONVERTING, a wait in IDLE that ends either way, and GET_ID. -/
theorem witness_PhaseKept :
    (after (step (afterOne 0x1000#16 ⟨.ok, 1#32⟩ 0x1200#16 [.write 0x40#7 0x03#8 0x11#8 true] [.ok 0#8 0#8]))).phase =
      .converting .temp ∧
    (after (step { withWords [0x1300#16] with answers := [.ok 1#8 0#8] })).phase = .idle ∧
    (after (step { withWords [0x1300#16] with answers := List.replicate 50 .err })).phase = .idle ∧
    (after (step (afterOne 0x1000#16 ⟨.ok, 1#32⟩ 0x0100#16 [.write 0x40#7 0x03#8 0x11#8 true] [.err]))).phase =
      .converting .temp ∧
    (after (step { withWords [0x0400#16] with answers := [.ok 0#8 0#8] })).phase = .idle := by
  refine ⟨?_, ?_, ?_, ?_, ?_⟩ <;> decide +kernel

/-- The four clauses of READ_RESULT's statement: each pair of answers. -/
theorem witness_ReadResult (c1 c2 : BusCall) (e : BusEvent) :
    (withAnswers [.err]).answerTo c1 = .err ∧
    (withAnswers [.ok 0xFF#8 0xFF#8, .err]).answerTo c1 = .ok 0xFF#8 0xFF#8 ∧
    ((withAnswers [.ok 0xFF#8 0xFF#8, .err]).afterCall e).answerTo c2 = .err ∧
    ((withAnswers [.ok 0xFF#8 0xFF#8, .ok 0x10#8 0#8]).afterCall e).answerTo c2 = .ok 0x10#8 0#8 ∧
    ((withAnswers [.ok 0xFF#8 0xFF#8, .ok 0xEF#8 0#8]).afterCall e).answerTo c2 = .ok 0xEF#8 0#8 ∧
    (0x10#8 : Byte).getLsbD 4 = true ∧ (0xEF#8 : Byte).getLsbD 4 = false := ⟨rfl, rfl, rfl, rfl, rfl, by decide, by decide⟩

theorem witness_ReadingsChange :
    let s : State := { withAnswers [.ok 0x23#8 0xAC#8, .ok 0x10#8 0#8] with program := [0x1400#16] }
    let e : State := { withAnswers [.err] with program := [0x1400#16] }
    (∃ t, step s = .next t ∧ t.lastT ≠ s.lastT) ∧
    (∃ t, step e = .next t ∧ t.responses = e.responses ++ [⟨.busError, 12345#32⟩]) :=
  ⟨⟨_, rfl, by decide⟩, ⟨_, rfl, rfl⟩⟩

theorem witness_CompHumComputes :
    let s := withReadings .binary64 2500 100
    State.reset.lastH = 1111#32 ∧ s.lastH ≠ 1111#32 ∧ -2147483648 ≤ compResult .binary64 true s.lastT s.lastH ∧
      compResult .binary64 true s.lastT s.lastH ≤ 2147483647 := by
  decide +kernel

theorem witness_CompHumRepeats :
    ∃ s', Sys2Proof.core.run 1 (withWords [0x2100#16]) = .next s' ∧
      ∀ (k : Nat) (u : State), k < 1 → Sys2Proof.core.run k (withWords [0x2100#16]) = .next u →
        (u.program[u.pc]?).bind decode ≠ some .readResult := by
  refine ⟨_, rfl, fun k u hk h => ?_⟩
  obtain rfl : k = 0 := by omega
  cases h
  decide

/-- The ends of both ranges of stored readings. -/
theorem witness_LegalReadings :
    LegalLastT (BitVec.ofInt 32 (-5000)) ∧ LegalLastT (BitVec.ofInt 32 46196) ∧
    LegalLastH (BitVec.ofInt 32 (-2400)) ∧ LegalLastH (BitVec.ofInt 32 23193) ∧
    BitVec.ofInt 32 46196 ≠ 55555#32 ∧ BitVec.ofInt 32 23193 ≠ 1111#32 :=
  ⟨.inr ⟨0, by decide⟩, .inr ⟨16383, by decide⟩, .inr ⟨0, by decide⟩, .inr ⟨4095, by decide⟩, by decide, by decide⟩

/-- A representable value, and a tie between two: 1/2 and the neighbours of 2^53 + 1. -/
theorem witness_Rounding :
    Representable .binary64 (1 / 2) ∧ Representable .binary64 (2 ^ 53 : Rat) ∧ Representable .binary64 (2 ^ 53 + 2 : Rat) ∧
    fl .binary64 (mkRat (2 ^ 53 + 1) 1) = mkRat (2 ^ 53) 1 := by
  refine ⟨⟨1, -1, by decide, by decide, by norm_num⟩, ⟨1, 53, by decide, by decide, by norm_num⟩,
    ⟨2 ^ 52 + 1, 1, by decide, by decide, by norm_num⟩, by decide +kernel⟩

/-- Every invariant's hypotheses: the state after reset has the invariant, and its step answers a next state. -/
theorem witness_Invariants :
    LegalReadings State.reset ∧ LegalTrace State.reset ∧ ResponsesMatchPc State.reset ∧ PhaseMatchesWrites State.reset ∧
    AddrFixed State.reset ∧ ∃ t, step State.reset = .next t := by
  refine ⟨⟨.inl rfl, .inl rfl⟩, ?_, ⟨rfl, by decide⟩, ?_, rfl, _, rfl⟩
  · intro e he; cases he
  · intro q h; rcases h with h | h | h <;> cases h

/-- A state just before the READ_RESULT of a start with this word and byte, whose wait has seen the device ready. -/
def readyToRead (start : CmdWord) (byte : Byte) : State :=
  { State.reset with
    program := [start, 0x1300#16, 0x1400#16], pc := 2, responses := [⟨.ok, 1#32⟩, ⟨.ok, 0#32⟩]
    trace := [.write 0x40#7 0x03#8 byte true], answers := [.ok 0x23#8 0xAC#8, .ok byte 0#8] }

/-- Every hypothesis of the statement on a well-sequenced READ_RESULT holds of a state, for the quantity q. -/
def MeetsWellSequenced (s : State) (q : Quantity) (byte : Byte) : Prop :=
  PhaseMatchesWrites s ∧ WellSequenced s q ∧
  s.answerTo (.read s.addr 0x01#8 2 (Config.readHold .resultData)) = .ok 0x23#8 0xAC#8 ∧
  (s.afterCall (.read s.addr 0x01#8 2 (Config.readHold .resultData) (some [0x23#8, 0xAC#8]))).answerTo
    (.read s.addr 0x03#8 1 (Config.readHold .resultConfig)) = .ok byte 0#8 ∧
  SingleOwner s byte ∧ ∃ t, exec .readResult s = .next t

theorem witness_WellSequenced_temp : MeetsWellSequenced (readyToRead 0x1000#16 0x11#8) .temp 0x11#8 := by
  refine ⟨?_, rfl, rfl, rfl, ?_, _, rfl⟩
  · intro q h
    obtain rfl : q = .temp := by
      rcases h with h | h | h
      · cases h
      · cases h; rfl
      · cases h
    exact ⟨0x11#8, by decide, by decide, by decide⟩
  · intro cfg h
    cases h
    rfl

theorem witness_WellSequenced_hum : MeetsWellSequenced (readyToRead 0x1100#16 0x01#8) .hum 0x01#8 := by
  refine ⟨?_, rfl, rfl, rfl, ?_, _, rfl⟩
  · intro q h
    obtain rfl : q = .hum := by
      rcases h with h | h | h
      · cases h
      · cases h; rfl
      · cases h
    exact ⟨0x01#8, by decide, by decide, by decide⟩
  · intro cfg h
    cases h
    rfl

end Sys2Proof.Tests
end

section
/-! ### The events of a step are legal calls (10_state.md R21, 20_memory.md R40 to R45) -/

namespace Sys2Proof.Machine

/-! Each kind of event a command records is a call the block may make. -/

theorem legalCall_readByte (s : State) (k : ReadKind) {reg : RegAddr}
    (hreg : reg = regStatus ∨ reg = regConfig ∨ reg = regId) (reply : Option Byte) :
    LegalCall s.addr (s.readEvent k reg 1 (reply.map fun b => [b])) := by
  refine ⟨rfl, .inl ⟨rfl, hreg⟩, fun bytes hbytes => ?_⟩
  obtain ⟨b, -, rfl⟩ := Option.map_eq_some_iff.mp hbytes
  rfl

theorem legalCall_readData (s : State) (k : ReadKind) (reply : Option (Byte × Byte)) :
    LegalCall s.addr (s.readEvent k regDataHigh 2 (reply.map fun p => [p.1, p.2])) := by
  refine ⟨rfl, .inr ⟨rfl, rfl⟩, fun bytes hbytes => ?_⟩
  obtain ⟨p, -, rfl⟩ := Option.map_eq_some_iff.mp hbytes
  rfl

theorem legalCall_writeConfig (s : State) (data : Byte) (ok : Bool) :
    LegalCall s.addr (.write s.addr regConfig data ok) := ⟨rfl, rfl⟩

theorem legalCall_sleep (addr : DevAddr) : LegalCall addr .sleep := trivial

theorem legalCall_pollEvent (s : State) (reply : Option Byte) : LegalCall s.addr (pollEvent s reply) :=
  legalCall_readByte s .waitConv (.inl rfl) reply

theorem legalCall_of_mem_busyPolls {s : State} {replies : List (Option Byte)} {e : BusEvent}
    (he : e ∈ replies.flatMap fun b => [pollEvent s b, .sleep]) : LegalCall s.addr e := by
  obtain ⟨b, -, he⟩ := List.mem_flatMap.mp he
  rcases List.mem_pair.mp he with rfl | rfl
  · exact legalCall_pollEvent s b
  · exact legalCall_sleep s.addr

/-! The events of each effect. -/

section
variable {s t : State} {r : Response} {new : List BusEvent}

theorem ByteReadEffect.legalCalls {k : ReadKind} {reg : RegAddr}
    (hreg : reg = regStatus ∨ reg = regConfig ∨ reg = regId) (h : ByteReadEffect k reg s r new) :
    ∀ e ∈ new, LegalCall s.addr e := by
  obtain ⟨reply, rfl, -⟩ := h
  exact List.forall_mem_singleton.mpr (legalCall_readByte s k hreg reply)

theorem ConfigWriteEffect.legalCalls {data : Byte} (h : ConfigWriteEffect data s r new) :
    ∀ e ∈ new, LegalCall s.addr e := by
  obtain ⟨ok, rfl, -⟩ := h
  exact List.forall_mem_singleton.mpr (legalCall_writeConfig s data ok)

theorem PollEffect.legalCalls (h : PollEffect s r new) : ∀ e ∈ new, LegalCall s.addr e := by
  obtain ⟨reply, rfl, -⟩ := h
  exact List.forall_mem_singleton.mpr (legalCall_readByte s .isConverting (.inl rfl) reply)

theorem WaitEffect.legalCalls (h : WaitEffect s r new) : ∀ e ∈ new, LegalCall s.addr e := by
  obtain ⟨busies, -, ⟨-, -, last, rfl⟩ | ⟨-, -, rfl⟩⟩ := h
  · exact List.forall_mem_append.mpr
      ⟨fun _ => legalCall_of_mem_busyPolls, List.forall_mem_singleton.mpr (legalCall_pollEvent s last)⟩
  · exact fun _ => legalCall_of_mem_busyPolls

theorem ReadResultEffect.legalCalls (h : ReadResultEffect s t r new) : ∀ e ∈ new, LegalCall s.addr e := by
  have data := legalCall_readData s .resultData
  have config := legalCall_readByte s .resultConfig (.inr (.inl rfl))
  rcases h with ⟨-, -, rfl | ⟨b0, b1, rfl⟩⟩ | ⟨b0, b1, cfg, rfl, -⟩
  · exact List.forall_mem_singleton.mpr (data none)
  · exact List.forall_mem_cons.mpr ⟨data (some (b0, b1)), List.forall_mem_singleton.mpr (config none)⟩
  · exact List.forall_mem_cons.mpr ⟨data (some (b0, b1)), List.forall_mem_singleton.mpr (config (some cfg))⟩

theorem ExecEffect.legalCalls {i : Instr} (h : ExecEffect i s t r new) : ∀ e ∈ new, LegalCall s.addr e := by
  cases i with
  | getId => exact h.2.legalCalls (.inr (.inr rfl))
  | getStatus => exact h.2.legalCalls (.inl rfl)
  | getConfig => exact h.2.legalCalls (.inr (.inl rfl))
  | setConfig | startTemp | startHum => exact h.2.legalCalls
  | isConverting => exact h.2.legalCalls
  | waitConv => exact h.2.legalCalls
  | readResult => exact ReadResultEffect.legalCalls h
  | compHum | getLastTemp | getLastHum =>
    obtain ⟨-, rfl, -⟩ := h
    exact List.forall_mem_nil _

end

/-- What every step leaves alone and adds to the trace: ADDR and the parameters stay, and the new events are calls the
block may make. -/
theorem step_keeps_addr_params_adds_legalCalls {s t : State} (h : step s = .next t) :
    t.addr = s.addr ∧ t.params = s.params ∧
      ∃ new, t.trace = s.trace ++ new ∧ ∀ e ∈ new, LegalCall s.addr e := by
  rcases step_cases h with ⟨-, rfl⟩ | ⟨w, -, -, rfl⟩ | ⟨w, i, -, -, hexec⟩
  · exact ⟨rfl, rfl, [], (List.append_nil _).symm, List.forall_mem_nil _⟩
  · exact ⟨rfl, rfl, [], (List.append_nil _).symm, List.forall_mem_nil _⟩
  · obtain ⟨r, new, ⟨-, htrace, hparams, -, haddr⟩, heffect⟩ := exec_effect hexec
    exact ⟨haddr, hparams, new, htrace, heffect.legalCalls⟩

/-- Settles O47: every step keeps ADDR and the parameters, and a call the block may make goes to ADDR. -/
theorem addrIsFixedAndAddressesEveryCall : Obligations.AddrIsFixedAndAddressesEveryCall := by
  refine ⟨resetWith_addr, rfl, fun s t h => ?_⟩
  obtain ⟨haddr, hparams, new, htrace, hlegal⟩ := step_keeps_addr_params_adds_legalCalls h
  refine ⟨haddr, hparams, new, htrace, fun e he => ?_⟩
  have hcall := hlegal e he
  cases e with
  | read => exact hcall.1
  | write => exact hcall.1
  | sleep => trivial

end Sys2Proof.Machine
end

section
/-! ### The events of a command are those the table lists (20_memory.md R45) -/

namespace Sys2Proof.Machine

/-! What busy polls record: for each reply one read of STATUS and one sleep. -/

theorem busyPolls_forall_sleep_or_readStatus (s : State) (replies : List (Option Byte)) :
    ∀ e ∈ replies.flatMap fun b => [pollEvent s b, .sleep],
      e = .sleep ∨ ∃ hold reply, e = .read s.addr 0x00#8 1 hold reply := by
  intro e he
  obtain ⟨b, -, he⟩ := List.mem_flatMap.mp he
  rcases List.mem_pair.mp he with rfl | rfl
  · exact .inr ⟨_, _, rfl⟩
  · exact .inl rfl

theorem pollEvent_ne_sleep (s : State) (reply : Option Byte) : pollEvent s reply ≠ .sleep := nofun

theorem busyPolls_reads_length (s : State) (replies : List (Option Byte)) :
    ((replies.flatMap fun b => [pollEvent s b, .sleep]).filter fun e => e ≠ .sleep).length = replies.length := by
  induction replies with
  | nil => rfl
  | cons b replies ih => simpa [pollEvent_ne_sleep] using ih

theorem busyPolls_sleeps_length (s : State) (replies : List (Option Byte)) :
    ((replies.flatMap fun b => [pollEvent s b, .sleep]).filter fun e => e = .sleep).length = replies.length := by
  induction replies with
  | nil => rfl
  | cons b replies ih => simpa [pollEvent_ne_sleep] using ih

/-! The table's row for each effect. -/

section
variable {s t : State} {r : Response} {new : List BusEvent}

theorem ByteReadEffect.events_eq {k : ReadKind} {reg : RegAddr} (h : ByteReadEffect k reg s r new) :
    ∃ hold reply, new = [.read s.addr reg 1 hold reply] := by
  obtain ⟨reply, rfl, -⟩ := h
  exact ⟨_, _, rfl⟩

theorem ConfigWriteEffect.events_eq {data : Byte} (h : ConfigWriteEffect data s r new) :
    ∃ ok, new = [.write s.addr 0x03#8 data ok] := by
  obtain ⟨ok, rfl, -⟩ := h
  exact ⟨ok, rfl⟩

theorem PollEffect.events_eq (h : PollEffect s r new) :
    ∃ hold reply, new = [.read s.addr 0x00#8 1 hold reply] := by
  obtain ⟨reply, rfl, -⟩ := h
  exact ⟨_, _, rfl⟩

theorem WaitEffect.forall_sleep_or_readStatus (h : WaitEffect s r new) :
    ∀ e ∈ new, e = .sleep ∨ ∃ hold reply, e = .read s.addr 0x00#8 1 hold reply := by
  obtain ⟨busies, -, ⟨-, -, last, rfl⟩ | ⟨-, -, rfl⟩⟩ := h
  · exact List.forall_mem_append.mpr
      ⟨busyPolls_forall_sleep_or_readStatus s busies, List.forall_mem_singleton.mpr (.inr ⟨_, _, rfl⟩)⟩
  · exact busyPolls_forall_sleep_or_readStatus s busies

/-- A ready poll after fewer than 50 busy ones adds the read that has no sleep; a timeout is 50 reads and 50 sleeps. -/
theorem WaitEffect.reads_and_sleeps_length (h : WaitEffect s r new) :
    1 ≤ (new.filter fun e => e ≠ .sleep).length ∧ (new.filter fun e => e ≠ .sleep).length ≤ 50 ∧
      (new.filter fun e => e = .sleep).length ≤ 50 := by
  obtain ⟨busies, -, ⟨hlen, -, last, rfl⟩ | ⟨hlen, -, rfl⟩⟩ := h
  · have hread : [pollEvent s last].filter (fun e => e ≠ .sleep) = [pollEvent s last] := rfl
    have hsleep : [pollEvent s last].filter (fun e => e = .sleep) = [] := rfl
    rw [List.filter_append, List.filter_append, List.length_append, List.length_append, hread, hsleep,
      busyPolls_reads_length, busyPolls_sleeps_length, List.length_singleton, List.length_nil]
    omega
  · rw [busyPolls_reads_length, busyPolls_sleeps_length]
    omega

theorem ReadResultEffect.events_eq (h : ReadResultEffect s t r new) :
    (∃ hold, new = [.read s.addr 0x01#8 2 hold none]) ∨
      ∃ hold hold' b0 b1 reply,
        new = [.read s.addr 0x01#8 2 hold (some [b0, b1]), .read s.addr 0x03#8 1 hold' reply] := by
  rcases h with ⟨-, -, rfl | ⟨b0, b1, rfl⟩⟩ | ⟨b0, b1, cfg, rfl, -⟩
  · exact .inl ⟨_, rfl⟩
  · exact .inr ⟨_, _, b0, b1, none, rfl⟩
  · exact .inr ⟨_, _, b0, b1, some [cfg], rfl⟩

end

theorem step_trace_of_illegal {s t : State} {w : CmdWord} (hfetch : s.fetch = some w) (hdecode : decode w = none)
    (h : step s = .next t) : t.trace = s.trace := by
  rw [step_of_illegal hfetch hdecode] at h
  cases h
  rfl

/-- Settles O45: the new events of `exec_effect`, read off row by row; an illegal word records none. -/
theorem eachCommandMakesItsListedAccesses : Obligations.EachCommandMakesItsListedAccesses := by
  refine ⟨fun i s t h => ?_, fun s t w => step_trace_of_illegal⟩
  obtain ⟨r, new, ⟨-, htrace, -, -, -⟩, heffect⟩ := exec_effect h
  refine ⟨new, htrace, ?_⟩
  cases i with
  | getId | getStatus | getConfig => exact heffect.2.events_eq
  | setConfig | startTemp | startHum => exact heffect.2.events_eq
  | isConverting => exact heffect.2.events_eq
  | waitConv => exact ⟨heffect.2.forall_sleep_or_readStatus, heffect.2.reads_and_sleeps_length⟩
  | readResult => exact ReadResultEffect.events_eq heffect
  | compHum | getLastTemp | getLastHum =>
    obtain ⟨-, hnew, -⟩ := heffect
    exact hnew

end Sys2Proof.Machine
end

section
/-! ### The decoder, arm by arm, and its inverse the encoder (30_encoding.md R62 to R65) -/

namespace Sys2Proof

theorem decode_eq_toOption (w : CmdWord) : decode w = (decodeNamed w).toOption := by
  unfold decode
  cases decodeNamed w <;> rfl

theorem toOption_acceptOperand (op opd : Byte) (i : Instr) :
    (acceptOperand op opd i).toOption = if i.format.operandWf opd then some i else none := by
  rcases acceptOperand_cases op opd i with ⟨hwf, h⟩ | ⟨hwf, h⟩ <;> rw [h, hwf] <;> rfl

theorem fh_wf_iff_and (opd : Byte) : Format.fh.operandWf opd = true ↔ opd &&& 0xDD#8 = 0x00#8 := beq_iff_eq

theorem p_wf_iff_and (opd : Byte) : Format.p.operandWf opd = true ↔ opd &&& 0xFE#8 = 0x00#8 := beq_iff_eq

/-- The pseudocode of 30_encoding.md R64. The model's arms are those of `op.toNat`, so each comparison is of numbers. -/
theorem decode_eq_arms (w : CmdWord) : decode w =
    (if opField w = 0x01#8 then (if opdField w = 0x00#8 then some .getId else none)
     else if opField w = 0x02#8 then (if opdField w = 0x00#8 then some .getStatus else none)
     else if opField w = 0x03#8 then (if opdField w = 0x00#8 then some .getConfig else none)
     else if opField w = 0x04#8 then some (.setConfig (opdField w))
     else if opField w = 0x10#8 then
       (if opdField w &&& 0xDD#8 = 0x00#8 then
         some (.startTemp ((opdField w).getLsbD 5) ((opdField w).getLsbD 1)) else none)
     else if opField w = 0x11#8 then
       (if opdField w &&& 0xDD#8 = 0x00#8 then
         some (.startHum ((opdField w).getLsbD 5) ((opdField w).getLsbD 1)) else none)
     else if opField w = 0x12#8 then (if opdField w = 0x00#8 then some .isConverting else none)
     else if opField w = 0x13#8 then (if opdField w = 0x00#8 then some .waitConv else none)
     else if opField w = 0x14#8 then (if opdField w = 0x00#8 then some .readResult else none)
     else if opField w = 0x20#8 then
       (if opdField w &&& 0xFE#8 = 0x00#8 then some (.compHum ((opdField w).getLsbD 0)) else none)
     else if opField w = 0x21#8 then (if opdField w = 0x00#8 then some .getLastTemp else none)
     else if opField w = 0x22#8 then (if opdField w = 0x00#8 then some .getLastHum else none)
     else none) := by
  have hop (c : Byte) : opField w = c ↔ (opField w).toNat = c.toNat := BitVec.toNat_inj.symm
  rw [decode_eq_toOption, decodeNamed]
  simp only [hop]
  split
  case h_13 => simp_all [Except.toOption]
  all_goals simp [*, toOption_acceptOperand, Instr.format, z_wf_iff, i8_wf, fh_wf_iff_and, p_wf_iff_and]

@[simp] theorem decode_encode (i : Instr) : decode (encode i) = some i := by
  cases i with
  | setConfig cfg => simp [decode_eq_arms, Instr.opcode, Instr.operandByte]
  | startTemp fast heat | startHum fast heat => cases fast <;> cases heat <;> decide
  | compHum hp => cases hp <;> decide
  | getId | getStatus | getConfig | isConverting | waitConv | readResult | getLastTemp | getLastHum => decide

/-- Each arm's OP is its command's, and a byte without a reserved bit is the byte of the operands read from it. -/
theorem opcode_operandByte_of_decode {w : CmdWord} {i : Instr} (h : decode w = some i) :
    i.opcode = opField w ∧ i.operandByte = opdField w := by
  rw [decode_eq_toOption, decodeNamed] at h
  split at h
  case h_13 => cases h
  all_goals
    rename_i hop
    rw [toOption_acceptOperand, Option.ite_none_right_eq_some] at h
    obtain ⟨hwf, ⟨⟩⟩ := h
    refine ⟨(BitVec.eq_of_toNat_eq hop).symm, ?_⟩
  case h_4 => rfl
  case h_5 | h_6 => exact (fh_wf_iff _).mp hwf
  case h_10 => exact (p_wf_iff _).mp hwf
  all_goals exact ((z_wf_iff _).mp hwf).symm

theorem encode_of_decode {w : CmdWord} {i : Instr} (h : decode w = some i) : encode i = w := by
  obtain ⟨hop, hopd⟩ := opcode_operandByte_of_decode h
  rw [encode, hop, hopd, joinFields_fields]

theorem encode_injective : Function.Injective encode := fun i j h =>
  Option.some.inj ((decode_encode i).symm.trans ((congrArg decode h).trans (decode_encode j)))

end Sys2Proof
end

section
/-! ### The number of legal words: each is the word of one command, and the commands are counted (30_encoding.md R64) -/

namespace Sys2Proof

/-- The commands by their operands: the 8 of format Z, SET_CONFIG, START_TEMP, START_HUM and COMP_HUM. -/
def instrEquivOperands : Instr ≃ Fin 8 ⊕ Fin 256 ⊕ (Bool × Bool) ⊕ (Bool × Bool) ⊕ Bool where
  toFun
    | .getId => .inl 0
    | .getStatus => .inl 1
    | .getConfig => .inl 2
    | .isConverting => .inl 3
    | .waitConv => .inl 4
    | .readResult => .inl 5
    | .getLastTemp => .inl 6
    | .getLastHum => .inl 7
    | .setConfig cfg => .inr (.inl cfg.toFin)
    | .startTemp fast heat => .inr (.inr (.inl (fast, heat)))
    | .startHum fast heat => .inr (.inr (.inr (.inl (fast, heat))))
    | .compHum hp => .inr (.inr (.inr (.inr hp)))
  invFun
    | .inl 0 => .getId
    | .inl 1 => .getStatus
    | .inl 2 => .getConfig
    | .inl 3 => .isConverting
    | .inl 4 => .waitConv
    | .inl 5 => .readResult
    | .inl 6 => .getLastTemp
    | .inl 7 => .getLastHum
    | .inr (.inl cfg) => .setConfig ⟨cfg⟩
    | .inr (.inr (.inl (fast, heat))) => .startTemp fast heat
    | .inr (.inr (.inr (.inl (fast, heat)))) => .startHum fast heat
    | .inr (.inr (.inr (.inr hp))) => .compHum hp
  left_inv i := by cases i <;> rfl
  right_inv
    | .inl z => by fin_cases z <;> rfl
    | .inr (.inl _) => rfl
    | .inr (.inr (.inl _)) => rfl
    | .inr (.inr (.inr (.inl _))) => rfl
    | .inr (.inr (.inr (.inr _))) => rfl

theorem natCard_instr : Nat.card Instr = 274 := by
  rw [Nat.card_congr instrEquivOperands]
  simp

/-- The legal words as numbers, in order. -/
def legalWords : List Nat := (List.range 65536).filter fun w => (decode (BitVec.ofNat 16 w)).isSome

theorem mem_legalWords_iff {n : Nat} : n ∈ legalWords ↔ ∃ i, (encode i).toNat = n := by
  simp only [legalWords, List.mem_filter, List.mem_range, Option.isSome_iff_exists]
  constructor
  · rintro ⟨hn, i, hi⟩
    exact ⟨i, by rw [encode_of_decode hi, BitVec.toNat_ofNat, Nat.mod_eq_of_lt hn]⟩
  · rintro ⟨i, rfl⟩
    exact ⟨(encode i).isLt, i, by simp⟩

theorem legalWords_length : legalWords.length = 274 := by
  have hnodup : legalWords.Nodup := List.nodup_range.filter _
  have hinj : Function.Injective fun i => (encode i).toNat := BitVec.toNat_injective.comp encode_injective
  calc legalWords.length
    _ = legalWords.toFinset.card := (List.toFinset_card_of_nodup hnodup).symm
    _ = Nat.card (Set.range fun i => (encode i).toNat) :=
      (Nat.subtype_card _ fun _ => List.mem_toFinset.trans mem_legalWords_iff).symm
    _ = Nat.card Instr := Nat.card_range_of_injective hinj
    _ = 274 := natCard_instr

/-- For every bound `n`: the kernel would evaluate a filter of the literal range. -/
theorem legal_length_add_illegal_length (n : Nat) :
    ((List.range n).filter fun w => (decode (BitVec.ofNat 16 w)).isSome).length +
      ((List.range n).filter fun w => (decode (BitVec.ofNat 16 w)).isNone).length = n := by
  have h := List.length_eq_length_filter_add (l := List.range n) fun w => (decode (BitVec.ofNat 16 w)).isSome
  simp only [Option.not_isSome, List.length_range] at h
  exact h.symm

theorem illegalWords_length :
    ((List.range 65536).filter fun w => (decode (BitVec.ofNat 16 w)).isNone).length = 65262 := by
  have h := legal_length_add_illegal_length 65536
  rw [← legalWords, legalWords_length] at h
  exact Nat.add_left_cancel (n := 274) h

/-- Settles O3: the arms, the count of commands, whose words are the legal ones, and the step on an illegal word. -/
theorem decoderFollowsThePseudocode : Obligations.DecoderFollowsThePseudocode :=
  ⟨decode_eq_arms, legalWords_length, illegalWords_length, fun _ _ => Machine.step_of_illegal⟩

end Sys2Proof
end

section
/-! ### Illegal words (30_encoding.md R65, 60_exceptions.md R204) -/

namespace Sys2Proof.Machine

/-- The OP values of the opcode map (30_encoding.md R62, R65). -/
def assignedOpcodes : List Byte :=
  [0x01#8, 0x02#8, 0x03#8, 0x04#8, 0x10#8, 0x11#8, 0x12#8, 0x13#8, 0x14#8, 0x20#8, 0x21#8, 0x22#8]

/-- An assigned OP selects one arm of R64, whose test is its reserved bits; any other OP selects none. -/
theorem decode_eq_none_iff (w : CmdWord) : decode w = none ↔
    opField w ∉ assignedOpcodes ∨
    (opField w ∈ [0x01#8, 0x02#8, 0x03#8, 0x12#8, 0x13#8, 0x14#8, 0x21#8, 0x22#8] ∧ opdField w ≠ 0x00#8) ∨
    (opField w ∈ [0x10#8, 0x11#8] ∧ opdField w &&& 0xDD#8 ≠ 0x00#8) ∨
    (opField w = 0x20#8 ∧ opdField w &&& 0xFE#8 ≠ 0x00#8) := by
  rw [decode_eq_arms]
  by_cases hop : opField w ∈ assignedOpcodes
  · simp only [assignedOpcodes, List.mem_cons, List.not_mem_nil, or_false] at hop ⊢
    rcases hop with hop | hop | hop | hop | hop | hop | hop | hop | hop | hop | hop | hop <;> simp [hop]
  · simp_all [assignedOpcodes]

theorem phase_raiseIllegal {s : State} {w : CmdWord} (hmatch : ResponsesMatchPc s) (hfetch : s.fetch = some w)
    (hdecode : decode w = none) : (raiseIllegal s).phase = s.phase := by
  rw [phase_append hmatch hfetch ⟨raiseIllegal_responses s, raiseIllegal_pc s⟩ (raiseIllegal_program s), phaseAfter,
    hdecode]

/-- Settles O11: the reserved bits arm by arm, and the step on an illegal word, whose entry the phase ignores. -/
theorem illegalWordAnswersIllegalCommand : Obligations.IllegalWordAnswersIllegalCommand := by
  refine ⟨decode_eq_none_iff, by decide, fun _ _ => step_of_illegal, fun s t w hmatch hfetch hdecode h => ?_⟩
  rw [step_of_illegal hfetch hdecode] at h
  cases h
  exact phase_raiseIllegal hmatch hfetch hdecode

end Sys2Proof.Machine
end

section
/-! ### The pseudo-instructions' words (30_encoding.md R68) -/

namespace Sys2Proof.Machine

theorem joinFields_fhByte (op : Byte) (fast heat : Bool) : joinFields op (fhByte fast heat) =
    joinFields op 0x00#8 ||| ((if fast then 1#16 <<< 5 else 0#16) ||| (if heat then 1#16 <<< 1 else 0#16)) := by
  cases fast <;> cases heat <;> simp [joinFields, fhByte]

/-- Settles O8: the expansions are the encodings by definition, and the flags of a start stand in the word as in its
operand byte. -/
theorem measurePseudoInstructionsExpand : Obligations.MeasurePseudoInstructionsExpand := fun fast heat =>
  ⟨congrArg (· :: _) (joinFields_fhByte 0x10#8 fast heat), rfl,
    congrArg (· :: _) (joinFields_fhByte 0x11#8 fast heat), rfl⟩

end Sys2Proof.Machine
end

section
/-! ### The register access commands, answer by answer (40_register_access.md R80 to R83) -/

namespace Sys2Proof.Machine

section
variable {s : State}

theorem byteReadCommand_of_ok {k : ReadKind} {reg : RegAddr} {b0 b1 : Byte}
    (h : s.answerTo (s.readCall k reg 1) = .ok b0 b1) :
    byteReadCommand k reg s = respond .ok (zext32 b0) (s.afterCall (s.readEvent k reg 1 (some [b0]))) := by
  simp [byteReadCommand, h]

theorem byteReadCommand_of_err {k : ReadKind} {reg : RegAddr} (h : s.answerTo (s.readCall k reg 1) = .err) :
    byteReadCommand k reg s = respond .busError errorByteValue (s.afterCall (s.readEvent k reg 1 none)) := by
  simp [byteReadCommand, h]

theorem configWriteCommand_of_ok {v b0 b1 : Byte} (h : s.answerTo (.write s.addr regConfig v) = .ok b0 b1) :
    configWriteCommand v s = respond .ok 1#32 (s.afterCall (.write s.addr regConfig v true)) := by
  simp [configWriteCommand, callStatus, boolValue, h]

theorem configWriteCommand_of_err {v : Byte} (h : s.answerTo (.write s.addr regConfig v) = .err) :
    configWriteCommand v s = respond .busError 0#32 (s.afterCall (.write s.addr regConfig v false)) := by
  simp [configWriteCommand, callStatus, boolValue, h]

end

/-- SET_CONFIG's word: the byte stands in it as it is. -/
theorem encode_setConfig (cfg : Byte) : encode (.setConfig cfg) = 0x0400#16 ||| cfg.setWidth 16 :=
  have hop : (0x04#8).setWidth 16 <<< 8 = 0x0400#16 := by decide
  congrArg (· ||| cfg.setWidth 16) hop

theorem nextPhase_setConfig_busError (cfg : Byte) (p : Phase) :
    nextPhase (.setConfig cfg) ⟨.busError, 0#32⟩ p = .unknown := rfl

theorem nextPhase_setConfig_ok (cfg : Byte) (p : Phase) :
    nextPhase (.setConfig cfg) ⟨.ok, 1#32⟩ p = afterSetConfig cfg p := rfl

theorem afterSetConfig_of_start {cfg : Byte} (h : startBit cfg = true) (p : Phase) :
    afterSetConfig cfg p = .converting (quantityOf cfg) := if_pos h

/-- Settles O16: the byte read of ID, on either answer. -/
theorem getIdReadsTheIdRegister : Obligations.GetIdReadsTheIdRegister :=
  ⟨rfl, fun _ =>
    ⟨fun _ _ h => congrArg Host.Outcome.next (byteReadCommand_of_ok h),
      fun h => congrArg Host.Outcome.next (byteReadCommand_of_err h)⟩⟩

/-- Settles O17: the byte read of STATUS, on either answer. -/
theorem getStatusReadsTheStatusRegister : Obligations.GetStatusReadsTheStatusRegister :=
  ⟨rfl, fun _ =>
    ⟨fun _ _ h => congrArg Host.Outcome.next (byteReadCommand_of_ok h),
      fun h => congrArg Host.Outcome.next (byteReadCommand_of_err h)⟩⟩

/-- Settles O18: the byte read of CONFIG, on either answer. -/
theorem getConfigReadsTheConfigRegister : Obligations.GetConfigReadsTheConfigRegister :=
  ⟨rfl, fun _ =>
    ⟨fun _ _ h => congrArg Host.Outcome.next (byteReadCommand_of_ok h),
      fun h => congrArg Host.Outcome.next (byteReadCommand_of_err h)⟩⟩

/-- Settles O19: the CONFIG write on either answer, and the phase after each of its two responses. -/
theorem setConfigWritesTheByteVerbatim : Obligations.SetConfigWritesTheByteVerbatim := fun cfg =>
  ⟨encode_setConfig cfg, nextPhase_setConfig_busError cfg,
    fun p hstart => (nextPhase_setConfig_ok cfg p).trans (afterSetConfig_of_start hstart p), fun _ =>
    ⟨fun _ _ h => congrArg Host.Outcome.next (configWriteCommand_of_ok h),
      fun h => congrArg Host.Outcome.next (configWriteCommand_of_err h)⟩⟩

end Sys2Proof.Machine
end

section
/-! ### The ghost phase, row by row of its table (41_conversion_sequencing.md R108) -/

namespace Sys2Proof.Machine

section
variable {p : Phase} {q : Quantity} {r : Response}

/-! What an observation makes of each phase. -/

theorem observeReady_eq_ready (h : p = .converting q ∨ p = .timedOut q) : observeReady p = .ready q := by
  rcases h with rfl | rfl <;> rfl

theorem observeReady_eq_self (h : ∀ q, p ≠ .converting q ∧ p ≠ .timedOut q) : observeReady p = p := by
  cases p with
  | converting q => exact absurd rfl (h q).1
  | timedOut q => exact absurd rfl (h q).2
  | idle | ready | unknown => rfl

theorem observeTimeout_eq_self (h : ∀ q, p ≠ .converting q) : observeTimeout p = p := by
  cases p with
  | converting q => exact absurd rfl (h q)
  | idle | ready | timedOut | unknown => rfl

theorem afterSetConfig_of_no_start {cfg : Byte} (h : startBit cfg = false) (p : Phase) :
    afterSetConfig cfg p = if p = .idle then .idle else .unknown := if_neg (ne_true_of_eq_false h)

/-! The rows of each command. -/

theorem nextPhase_startTemp_ok (fast heat : Bool) (p : Phase) :
    nextPhase (.startTemp fast heat) ⟨.ok, 1#32⟩ p = .converting .temp := rfl

theorem nextPhase_startTemp_busError (fast heat : Bool) (p : Phase) :
    nextPhase (.startTemp fast heat) ⟨.busError, 0#32⟩ p = .unknown := rfl

theorem nextPhase_startHum_ok (fast heat : Bool) (p : Phase) :
    nextPhase (.startHum fast heat) ⟨.ok, 1#32⟩ p = .converting .hum := rfl

theorem nextPhase_startHum_busError (fast heat : Bool) (p : Phase) :
    nextPhase (.startHum fast heat) ⟨.busError, 0#32⟩ p = .unknown := rfl

theorem nextPhase_isConverting_ready (p : Phase) : nextPhase .isConverting ⟨.ok, 0#32⟩ p = observeReady p := rfl

theorem nextPhase_isConverting_of_ne (h : r ≠ ⟨.ok, 0#32⟩) : nextPhase .isConverting r p = p := if_neg h

theorem nextPhase_waitConv_of_ok (h : r.status = .ok) : nextPhase .waitConv r p = observeReady p := if_pos h

theorem nextPhase_waitConv_timeout (p : Phase) : nextPhase .waitConv ⟨.timeout, 50#32⟩ p = observeTimeout p := rfl

/-- After a wait that was not OK: TIMEOUT is observed, and any other response changes nothing. -/
theorem nextPhase_waitConv_of_not_ok (h : r.status ≠ .ok) :
    nextPhase .waitConv r p = if r = ⟨.timeout, 50#32⟩ then observeTimeout p else p := if_neg h

theorem nextPhase_readResult_of_ok (h : r.status = .ok) : nextPhase .readResult r p = .idle := if_pos h

theorem nextPhase_readResult_of_not_ok (h : r.status ≠ .ok) : nextPhase .readResult r p = p := if_neg h

/-- A poll, by IS_CONVERTING or WAIT_CONV, moves no phase but CONVERTING and TIMED_OUT, whatever it answers. -/
theorem nextPhase_poll_eq_self {i : Instr} (hi : i = .isConverting ∨ i = .waitConv)
    (h : ∀ q, p ≠ .converting q ∧ p ≠ .timedOut q) : nextPhase i r p = p := by
  have hready := observeReady_eq_self h
  have htimeout := observeTimeout_eq_self fun q => (h q).1
  rcases hi with rfl | rfl <;> simp [nextPhase, hready, htimeout]

theorem nextPhase_waitConv_eq_self (hr : r.status ≠ .ok) (h : ∀ q, p ≠ .converting q) :
    nextPhase .waitConv r p = p := by
  rw [nextPhase_waitConv_of_not_ok hr, observeTimeout_eq_self h, ite_self]

theorem nextPhase_failedWrite {i : Instr}
    (hi : (∃ cfg, i = .setConfig cfg) ∨ (∃ f h, i = .startTemp f h) ∨ (∃ f h, i = .startHum f h)) :
    nextPhase i ⟨.busError, 0#32⟩ p = .unknown := by
  rcases hi with ⟨cfg, rfl⟩ | ⟨f, h, rfl⟩ | ⟨f, h, rfl⟩
  · exact nextPhase_setConfig_busError cfg p
  · exact nextPhase_startTemp_busError f h p
  · exact nextPhase_startHum_busError f h p

/-- The commands that stand in no row of the table. -/
theorem nextPhase_eq_self_of_mem {i : Instr}
    (hi : i ∈ [.getId, .getStatus, .getConfig, .compHum true, .compHum false, .getLastTemp, .getLastHum]) :
    nextPhase i r p = p := by
  simp only [List.mem_cons, List.not_mem_nil, or_false] at hi
  rcases hi with rfl | rfl | rfl | rfl | rfl | rfl | rfl <;> rfl

end

/-- A completed command's one response, and the phase it leads to. -/
theorem step_phase {s t : State} {w : CmdWord} {i : Instr} (hmatch : ResponsesMatchPc s) (hfetch : s.fetch = some w)
    (hdecode : decode w = some i) (h : step s = .next t) :
    ∃ r, RespondsWith s t r ∧ t.phase = nextPhase i r s.phase := by
  rw [step_of_decode hfetch hdecode] at h
  obtain ⟨r, new, ⟨hresponds, -, -, hprogram, -⟩, -⟩ := exec_effect h
  refine ⟨r, hresponds, ?_⟩
  rw [phase_append hmatch hfetch hresponds hprogram, phaseAfter, hdecode]

/-- Settles O28: reset has no history, an illegal word's entry is ignored (O11), and a command's entry gives
`nextPhase`, whose rows are the lemmas above. -/
theorem phaseFollowsTheTable : Obligations.PhaseFollowsTheTable := by
  obtain ⟨-, -, -, hillegal⟩ := illegalWordAnswersIllegalCommand
  refine ⟨fun _ => rfl, hillegal, fun s t w i hmatch hfetch hdecode h => ?_⟩
  obtain ⟨r, hresponds, hphase⟩ := step_phase hmatch hfetch hdecode h
  refine ⟨r, hresponds, ?_⟩
  rw [hphase]
  refine ⟨?startTemp, ?startHum, ?setStart, ?setOther, ?failedWrite, ?observed, ?timedOut, ?read, ?pollKept,
    ?busyKept, ?waitKept, ?readKept, nextPhase_eq_self_of_mem⟩
  case startTemp => rintro f h rfl rfl; exact nextPhase_startTemp_ok f h s.phase
  case startHum => rintro f h rfl rfl; exact nextPhase_startHum_ok f h s.phase
  case setStart =>
    rintro cfg rfl rfl hstart
    exact (nextPhase_setConfig_ok cfg s.phase).trans (afterSetConfig_of_start hstart s.phase)
  case setOther =>
    rintro cfg rfl rfl hstart
    exact (nextPhase_setConfig_ok cfg s.phase).trans (afterSetConfig_of_no_start hstart s.phase)
  case failedWrite => rintro hi rfl; exact nextPhase_failedWrite hi
  case observed =>
    rintro q (⟨rfl, rfl⟩ | ⟨rfl, hok⟩) hp
    · exact (nextPhase_isConverting_ready s.phase).trans (observeReady_eq_ready hp)
    · exact (nextPhase_waitConv_of_ok hok).trans (observeReady_eq_ready hp)
  case timedOut => rintro q rfl rfl hp; rw [hp, nextPhase_waitConv_timeout, observeTimeout]
  case read => rintro rfl hok; exact nextPhase_readResult_of_ok hok
  case pollKept => exact nextPhase_poll_eq_self
  case busyKept => rintro rfl hr; exact nextPhase_isConverting_of_ne hr
  case waitKept => rintro rfl hr hp; exact nextPhase_waitConv_eq_self hr hp
  case readKept => rintro rfl hr; exact nextPhase_readResult_of_not_ok hr

end Sys2Proof.Machine
end

section
/-! ### The polling loop of WAIT_CONV (41_conversion_sequencing.md R106) -/

namespace Sys2Proof.Machine

theorem exec_waitConv (s : State) : exec .waitConv s = .next (waitLoop 50 0 s) := rfl

/-- Settles O25: `waitLoop_spec` from a state with no poll made yet, and the phase rows of WAIT_CONV. -/
theorem waitConvPollsUntilReadyOrFiftyBusy : Obligations.WaitConvPollsUntilReadyOrFiftyBusy := by
  refine ⟨by decide, fun p q k hp => (nextPhase_waitConv_of_ok rfl).trans (observeReady_eq_ready hp),
    fun q => nextPhase_waitConv_timeout (.converting q), fun s => ?_⟩
  obtain ⟨busies, hbusies, hend⟩ := waitLoop_spec 50 s []
  simp only [afterBusyPolls_nil, List.nil_append, List.length_nil, Nat.zero_add] at hbusies hend
  refine ⟨busies, hbusies, ?_⟩
  rw [exec_waitConv]
  rcases hend with ⟨hlt, hready, hloop⟩ | ⟨hlen, hloop⟩
  · exact .inl ⟨hlt, hready, congrArg Host.Outcome.next hloop⟩
  · exact .inr ⟨hlen, congrArg Host.Outcome.next hloop⟩

end Sys2Proof.Machine
end

section
/-! ### The start commands (41_conversion_sequencing.md R101 to R103) -/

namespace Sys2Proof.Machine

/-- TEMP and START are one constant. -/
theorem cfgStart_temp (fast heat : Bool) : cfgStart .temp fast heat =
    0x11#8 ||| (if fast then 0x20#8 else 0x00#8) ||| (if heat then 0x02#8 else 0x00#8) := rfl

/-- HUMIDITY is the implicit 0x00 beside START. -/
theorem cfgStart_hum (fast heat : Bool) : cfgStart .hum fast heat =
    0x01#8 ||| (if fast then 0x20#8 else 0x00#8) ||| (if heat then 0x02#8 else 0x00#8) := rfl

theorem cfgStart_reserved_eq_zero (q : Quantity) (fast heat : Bool) : cfgStart q fast heat &&& 0xCC#8 = 0x00#8 := by
  cases q with
  | temp => cases fast <;> cases heat <;> decide
  | hum => cases fast <;> cases heat <;> decide

/-- Settles O20: the rows of R101's table, and the bits no flag of a start stands in. -/
theorem startByteIsOneOfEight : Obligations.StartByteIsOneOfEight :=
  ⟨rfl, rfl, rfl, rfl, rfl, rfl, rfl, rfl, cfgStart_reserved_eq_zero⟩

/-- The word of a start: its opcode's word with the two flags. -/
theorem encode_startTemp (fast heat : Bool) : encode (.startTemp fast heat) =
    0x1000#16 ||| (if fast then 1#16 <<< 5 else 0#16) ||| (if heat then 1#16 <<< 1 else 0#16) :=
  (joinFields_fhByte 0x10#8 fast heat).trans (BitVec.or_assoc _ _ _).symm

theorem encode_startHum (fast heat : Bool) : encode (.startHum fast heat) =
    0x1100#16 ||| (if fast then 1#16 <<< 5 else 0#16) ||| (if heat then 1#16 <<< 1 else 0#16) :=
  (joinFields_fhByte 0x11#8 fast heat).trans (BitVec.or_assoc _ _ _).symm

theorem exec_startTemp (fast heat : Bool) (s : State) :
    exec (.startTemp fast heat) s = .next (configWriteCommand (cfgStart .temp fast heat) s) := rfl

theorem exec_startHum (fast heat : Bool) (s : State) :
    exec (.startHum fast heat) s = .next (configWriteCommand (cfgStart .hum fast heat) s) := rfl

/-- Settles O21: the CONFIG write of a temperature start on either answer, and the phase after each response. -/
theorem startTempWritesItsConfigByte : Obligations.StartTempWritesItsConfigByte := by
  refine fun fast heat => ⟨encode_startTemp fast heat,
    fun p => ⟨nextPhase_startTemp_ok fast heat p, nextPhase_startTemp_busError fast heat p⟩, fun s => ?_⟩
  rw [exec_startTemp, cfgStart_temp]
  exact ⟨fun _ _ h => congrArg Host.Outcome.next (configWriteCommand_of_ok h),
    fun h => congrArg Host.Outcome.next (configWriteCommand_of_err h)⟩

/-- Settles O22: the CONFIG write of a humidity start on either answer, and the phase after each response. -/
theorem startHumWritesItsConfigByte : Obligations.StartHumWritesItsConfigByte := by
  refine fun fast heat => ⟨encode_startHum fast heat,
    fun p => ⟨nextPhase_startHum_ok fast heat p, nextPhase_startHum_busError fast heat p⟩, fun s => ?_⟩
  rw [exec_startHum, cfgStart_hum]
  exact ⟨fun _ _ h => congrArg Host.Outcome.next (configWriteCommand_of_ok h),
    fun h => congrArg Host.Outcome.next (configWriteCommand_of_err h)⟩

end Sys2Proof.Machine
end

section
/-! ### The ready test and IS_CONVERTING (41_conversion_sequencing.md R104, R105) -/

namespace Sys2Proof.Machine

@[simp] theorem busy_readyHigh_some (b : Byte) : busy .readyHigh (some b) = (b.getLsbD 0 == false) := rfl

@[simp] theorem busy_readyLow_some (b : Byte) : busy .readyLow (some b) = (b.getLsbD 0 == true) := rfl

@[simp] theorem busy_none (pol : RdyPolarity) : busy pol none = true := rfl

/-- The mask of RDY leaves bit 0 alone. -/
theorem and_one_eq_ite (b : Byte) : b &&& 0x01#8 = if b.getLsbD 0 then 0x01#8 else 0x00#8 := by
  rw [BitVec.and_one_eq_setWidth_ofBool_getLsbD]
  cases b.getLsbD 0 <;> rfl

/-- Settles O23: both polarities by the value of bit 0. -/
theorem readyTestReadsBitZeroAndFailsSafe : Obligations.ReadyTestReadsBitZeroAndFailsSafe := by
  refine ⟨fun b => ?high, fun b => ?low, busy_none⟩
  case high => rw [busy_readyHigh_some, and_one_eq_ite]; cases b.getLsbD 0 <;> decide
  case low => rw [busy_readyLow_some, and_one_eq_ite]; cases b.getLsbD 0 <;> decide

theorem boolValue_beq (x y : Bool) : boolValue (x == y) = if x = y then 1#32 else 0#32 := by
  simp [boolValue]

section
variable {s : State}

theorem pollCommand_of_ok {b0 b1 : Byte} (h : s.answerTo (s.readCall .isConverting regStatus 1) = .ok b0 b1) :
    pollCommand s = respond .ok (boolValue (busy s.params.rdyPolarity (some b0)))
      (s.afterCall (s.readEvent .isConverting regStatus 1 (some [b0]))) := by
  simp [pollCommand, callStatus, h]

theorem pollCommand_of_err (h : s.answerTo (s.readCall .isConverting regStatus 1) = .err) :
    pollCommand s = respond .busError 1#32 (s.afterCall (s.readEvent .isConverting regStatus 1 none)) := by
  simp [pollCommand, callStatus, boolValue, h]

end

theorem exec_isConverting (s : State) : exec .isConverting s = .next (pollCommand s) := rfl

/-- Settles O24: the poll on either answer, its value by the polarity, and the phase row of (OK, 0). -/
theorem isConvertingReportsTheReadyTest : Obligations.IsConvertingReportsTheReadyTest := by
  refine ⟨by decide, fun p q hp => (nextPhase_isConverting_ready p).trans (observeReady_eq_ready hp), fun s => ?_⟩
  rw [exec_isConverting]
  refine ⟨fun b0 b1 h => ?ok, fun h => congrArg Host.Outcome.next (pollCommand_of_err h)⟩
  case ok =>
    rw [pollCommand_of_ok h]
    cases s.params.rdyPolarity with
    | readyHigh => rw [busy_readyHigh_some, boolValue_beq]; rfl
    | readyLow => rw [busy_readyLow_some, boolValue_beq]; rfl

end Sys2Proof.Machine
end

section
/-! ### READ_RESULT, answer by answer (42_measurement_decode.md R131, R132, R135, R136) -/

namespace Sys2Proof.Machine

/-! The one-decimal value of every code fits the 16 signed bits it is stored in. -/

theorem sext32_eq_ofInt {n : Int} (h : -32768 ≤ n) (h' : n ≤ 32767) : sext32 n = BitVec.ofInt 32 n := by
  apply BitVec.eq_of_toInt_eq
  rw [sext32_toInt n h h', BitVec.toInt_ofInt, Int.bmod_eq_of_le (by omega) (by omega)]

theorem decodeT_bounds {c : Nat} (h : c < 65536) : -5000 ≤ decodeT c ∧ decodeT c ≤ 46196 := by
  rw [decodeT_eq]; omega

theorem decodeH_bounds {c : Nat} (h : c < 65536) : -2400 ≤ decodeH c ∧ decodeH c ≤ 23193 := by
  rw [decodeH_eq]; omega

/-- Coarse bounds on R10: both paths' ×100 values lie well inside ±50000. -/
theorem roundTenth_bounds {x : Int} (h : -50000 ≤ x) (h' : x ≤ 50000) :
    -5000 ≤ roundTenth x ∧ roundTenth x ≤ 5000 := by
  rw [roundTenth_eq]; split <;> omega

theorem sext32_roundTenth {x : Int} (h : -50000 ≤ x) (h' : x ≤ 50000) :
    sext32 (roundTenth x) = BitVec.ofInt 32 (roundTenth x) := by
  obtain ⟨hlow, hhigh⟩ := roundTenth_bounds h h'
  exact sext32_eq_ofInt (by omega) (by omega)

section
variable {s : State} {cfg c1 b0 b1 : Byte}

/-! The storing end, on each path. -/

theorem storeResult_of_temp (h : tempBit cfg = true) : storeResult cfg (adcCode b0 b1) s =
    respond .ok (BitVec.ofInt 32 (roundTenth (decodeT (adcCode b0 b1))))
      (setLastT (BitVec.ofInt 32 (decodeT (adcCode b0 b1))) s) := by
  obtain ⟨hlow, hhigh⟩ := decodeT_bounds (adcCode_lt b0 b1)
  rw [storeResult, if_pos h, sext32_roundTenth (by omega) (by omega)]

theorem storeResult_of_hum (h : tempBit cfg = false) : storeResult cfg (adcCode b0 b1) s =
    respond .ok (BitVec.ofInt 32 (roundTenth (decodeH (adcCode b0 b1))))
      (setLastH (BitVec.ofInt 32 (decodeH (adcCode b0 b1))) s) := by
  obtain ⟨hlow, hhigh⟩ := decodeH_bounds (adcCode_lt b0 b1)
  rw [storeResult, if_neg (ne_true_of_eq_false h), sext32_roundTenth (by omega) (by omega)]

/-! The three endings of the two reads. -/

theorem readResultCommand_of_data_err (h : s.answerTo (s.readCall .resultData regDataHigh 2) = .err) :
    readResultCommand s = respond .busError sentU (s.afterCall (s.readEvent .resultData regDataHigh 2 none)) := by
  simp [readResultCommand, h]

theorem readResultCommand_of_config_err (hdata : s.answerTo (s.readCall .resultData regDataHigh 2) = .ok b0 b1)
    (hconfig : (s.afterCall (s.readEvent .resultData regDataHigh 2 (some [b0, b1]))).answerTo
      (s.readCall .resultConfig regConfig 1) = .err) :
    readResultCommand s = respond .busError sentU
      ((s.afterCall (s.readEvent .resultData regDataHigh 2 (some [b0, b1]))).afterCall
        (s.readEvent .resultConfig regConfig 1 none)) := by
  simp [readResultCommand, hdata, hconfig]

theorem readResultCommand_of_ok (hdata : s.answerTo (s.readCall .resultData regDataHigh 2) = .ok b0 b1)
    (hconfig : (s.afterCall (s.readEvent .resultData regDataHigh 2 (some [b0, b1]))).answerTo
      (s.readCall .resultConfig regConfig 1) = .ok cfg c1) :
    readResultCommand s = storeResult cfg (adcCode b0 b1)
      ((s.afterCall (s.readEvent .resultData regDataHigh 2 (some [b0, b1]))).afterCall
        (s.readEvent .resultConfig regConfig 1 (some [cfg]))) := by
  simp [readResultCommand, hdata, hconfig]

end

theorem exec_readResult (s : State) : exec .readResult s = .next (readResultCommand s) := rfl

/-- Settles O29: the two reads on each answer, the storing end by the TEMP bit, and the phase row of OK. -/
theorem readResultDecodesByTheTempBitReadBack : Obligations.ReadResultDecodesByTheTempBitReadBack := by
  refine ⟨by decide, fun _ _ => nextPhase_readResult_of_ok rfl, fun s => ?_⟩
  rw [exec_readResult]
  refine ⟨?dataErr, fun b0 b1 hdata => ⟨?configErr, ?temp, ?hum⟩⟩
  case dataErr => exact fun h => congrArg Host.Outcome.next (readResultCommand_of_data_err h)
  case configErr => exact fun h => congrArg Host.Outcome.next (readResultCommand_of_config_err hdata h)
  case temp =>
    intro cfg c1 hconfig htemp
    rw [readResultCommand_of_ok hdata hconfig, storeResult_of_temp htemp, roundTenth_eq, decodeT_eq]
    rfl
  case hum =>
    intro cfg c1 hconfig hhum
    rw [readResultCommand_of_ok hdata hconfig, storeResult_of_hum hhum, roundTenth_eq, decodeH_eq]
    rfl

end Sys2Proof.Machine
end

section
/-! ### COMP_HUM, stage by stage (43_humidity_compensation.md R161, R162, R163, R164) -/

namespace Sys2Proof.Machine

theorem exec_compHum (hp : Bool) (s : State) : exec (.compHum hp) s =
    .next (respond .ok (compHumValue s.params.floatFormat hp s.lastT s.lastH) s) := rfl

section
variable {F : FloatFormat} {hp : Bool} {t h : Value}

theorem compHumValue_of_sentinel (hh : h = sentH) : compHumValue F hp t h = sentH := if_pos hh

theorem compHumValue_of_measured (hh : h ≠ sentH) : compHumValue F hp t h = fitS32 (compResult F hp t h) := if_neg hh

theorem compHumValue_toInt (hh : h ≠ sentH) (hlow : -2147483648 ≤ compResult F hp t h)
    (hhigh : compResult F hp t h ≤ 2147483647) : (compHumValue F hp t h).toInt = compResult F hp t h := by
  rw [compHumValue_of_measured hh, fitS32_toInt _ hlow hhigh]

/-- R162 in the rule's own order, the measured temperature first. -/
theorem calibrated_eq_ite_measured : calibrated F t h =
    if t ≠ sentT then temperatureCompensate F (linearize F h.toInt) t.toInt else linearize F h.toInt :=
  (ite_not ..).symm

end

/-- Settles O36: each stage of the model is the rule's chain of roundings, and the integer they give is VALUE where a
humidity was measured and it fits. -/
theorem compHumComputesTheTwoStages : Obligations.CompHumComputesTheTwoStages := by
  refine ⟨by decide, by decide, ?_⟩
  intro hp s F c v p lin d k out sc y result
  have hlin : linearize F s.lastH.toInt = lin := rfl
  have hstage2 : temperatureCompensate F lin s.lastT.toInt = fl F (lin + fl F (d * k)) := rfl
  have hout : calibrated F s.lastT s.lastH = out := by
    rw [calibrated_eq_ite_measured, hlin, hstage2]; rfl
  have hresult : compResult F hp s.lastT s.lastH = result := by
    rw [compResult, hout]; rfl
  refine ⟨compHumValue F hp s.lastT s.lastH, exec_compHum hp s, compHumValue_of_sentinel, ?_⟩
  rw [← hresult]
  exact compHumValue_toInt

end Sys2Proof.Machine
end

section
/-! ### The state accessors (44_accessors.md R180, R181) -/

namespace Sys2Proof.Machine

theorem exec_getLastTemp (s : State) : exec .getLastTemp s = .next (respond .ok s.lastT s) := rfl

theorem exec_getLastHum (s : State) : exec .getLastHum s = .next (respond .ok s.lastH s) := rfl

/-- Settles O43: the command is a bare response, so responses and pc are all that `respond` changes. -/
theorem getLastTempAnswersLastT : Obligations.GetLastTempAnswersLastT := by
  refine ⟨by decide, fun s => ?_⟩
  rw [exec_getLastTemp, respond]

/-- Settles O44: as for the temperature, with LAST_H delivered. -/
theorem getLastHumAnswersLastH : Obligations.GetLastHumAnswersLastH := by
  refine ⟨by decide, fun s => ?_⟩
  rw [exec_getLastHum, respond]

end Sys2Proof.Machine
end

section
/-! ### TIMEOUT is the end of a wait (60_exceptions.md R203) -/

namespace Sys2Proof.Machine

theorem callStatus_ne_timeout (ok : Bool) : callStatus ok ≠ .timeout := by
  cases ok <;> decide

/-- The response that leads from one state to another is the only one. -/
theorem RespondsWith.unique {s t : State} {r r' : Response} (h : RespondsWith s t r) (h' : RespondsWith s t r') :
    r = r' := by
  obtain ⟨hresponses, -⟩ := h
  obtain ⟨hresponses', -⟩ := h'
  exact List.singleton_inj.mp (List.append_cancel_left (hresponses.symm.trans hresponses'))

section
variable {s t : State} {r : Response} {new : List BusEvent}

/-! The effects that report OK or BUS_ERROR only. -/

theorem ByteReadEffect.status_ne_timeout {k : ReadKind} {reg : RegAddr} (h : ByteReadEffect k reg s r new) :
    r.status ≠ .timeout := by
  obtain ⟨_ | b, -, rfl⟩ := h <;> exact nofun

theorem ConfigWriteEffect.status_ne_timeout {data : Byte} (h : ConfigWriteEffect data s r new) :
    r.status ≠ .timeout := by
  obtain ⟨ok, -, rfl⟩ := h
  exact callStatus_ne_timeout ok

theorem PollEffect.status_ne_timeout (h : PollEffect s r new) : r.status ≠ .timeout := by
  obtain ⟨_ | b, -, rfl⟩ := h <;> exact nofun

theorem ReadResultEffect.status_ne_timeout (h : ReadResultEffect s t r new) : r.status ≠ .timeout := by
  rcases h with ⟨-, rfl, -⟩ | ⟨b0, b1, cfg, -, ⟨-, -, -, rfl⟩ | ⟨-, -, -, rfl⟩⟩ <;> exact nofun

theorem ExecEffect.eq_waitConv_of_timeout {i : Instr} (h : ExecEffect i s t r new) (hr : r.status = .timeout) :
    i = .waitConv := by
  cases i with
  | waitConv => rfl
  | getId | getStatus | getConfig => exact absurd hr h.2.status_ne_timeout
  | setConfig | startTemp | startHum => exact absurd hr h.2.status_ne_timeout
  | isConverting => exact absurd hr h.2.status_ne_timeout
  | readResult => exact absurd hr (ReadResultEffect.status_ne_timeout h)
  | compHum | getLastTemp | getLastHum =>
    obtain ⟨-, -, rfl⟩ := h
    exact absurd hr nofun

/-- A wait that reports TIMEOUT made 50 busy polls and no other call. -/
theorem WaitEffect.busyPolls_of_timeout (h : WaitEffect s r new) (hr : r.status = .timeout) :
    r.value = 50#32 ∧ ∃ replies : List (Option Byte), replies.length = 50 ∧
      (∀ b ∈ replies, busy s.params.rdyPolarity b = true) ∧
      new = replies.flatMap fun b => [pollEvent s b, .sleep] := by
  obtain ⟨busies, hbusy, ⟨-, rfl, -⟩ | ⟨hlen, rfl, hnew⟩⟩ := h
  · exact absurd hr nofun
  · exact ⟨rfl, busies, hlen, hbusy, hnew⟩

end

/-- Settles O26: by its effect a command that answers TIMEOUT is a wait, whose polls were all busy; READ_RESULT answers
a next state from every state. -/
theorem timeoutOnlyAfterFiftyBusyPolls : Obligations.TimeoutOnlyAfterFiftyBusyPolls := by
  intro i s t v h htimeout
  obtain ⟨r, new, ⟨hresponds, htrace, hparams, hprogram, haddr⟩, heffect⟩ := exec_effect h
  obtain rfl := hresponds.unique htimeout
  obtain rfl := heffect.eq_waitConv_of_timeout rfl
  obtain ⟨⟨hlastT, hlastH⟩, hwait⟩ := heffect
  obtain ⟨hvalue, replies, hlen, hbusy, rfl⟩ := hwait.busyPolls_of_timeout rfl
  exact ⟨rfl, hvalue, ⟨haddr, hlastT, hlastH, hparams, hprogram⟩, ⟨_, exec_readResult t⟩,
    replies, hlen, hbusy, htrace⟩

end Sys2Proof.Machine
end

section
/-! ### The state after reset (70_reset_and_hazards.md R230) -/

namespace Sys2Proof.Machine

section
variable {s : State}

theorem history_of_responses_nil (h : s.responses = []) : s.history = [] := by
  rw [State.history, h, List.zip_nil_right]

/-- Without a response no command has completed, so the ghost phase is still the initial one. -/
theorem phase_of_responses_nil (h : s.responses = []) : s.phase = .idle := by
  rw [State.phase, history_of_responses_nil h, phaseOf, List.foldl_nil]

theorem lastResponse_of_responses_nil (h : s.responses = []) : s.lastResponse = none := by
  rw [State.lastResponse, h, List.getLast?_nil]

end

/-- Settles O13: the registers are the fields `resetWith` sets; the phase is IDLE and there is no last response because
no response exists. -/
theorem resetLeavesTheStatedValues : Obligations.ResetLeavesTheStatedValues := by
  refine ⟨fun p => ?_, rfl, resetWith_addr defaultParams⟩
  have hresponses := resetWith_responses p
  exact ⟨resetWith_addr p, resetWith_lastT p, resetWith_lastH p, resetWith_pc p, resetWith_params p,
    phase_of_responses_nil hresponses, lastResponse_of_responses_nil hresponses, resetWith_trace p⟩

end Sys2Proof.Machine
end

section
/-! ### The encoder and the decoder are inverse on commands and legal words (30_encoding.md R60, R62 to R64) -/

namespace Sys2Proof

theorem wf_all (i : Instr) : i.wf = true := by
  cases i with
  | setConfig cfg => exact i8_wf cfg
  | startTemp fast heat | startHum fast heat => exact fhByte_wf fast heat
  | compHum hp => exact hpByte_wf hp
  | getId | getStatus | getConfig | isConverting | waitConv | readResult | getLastTemp | getLastHum => decide

/-- Settles O1: the operand byte of every command is well formed, and `decode_encode` reads it back. -/
theorem decodeOfEncodeIsTheCommand : Obligations.DecodeOfEncodeIsTheCommand := fun i =>
  ⟨wf_all i, decode_encode i⟩

/-- Settles O2: a decoded command's two bytes are those of the word. -/
theorem encodeOfDecodeIsTheWord : Obligations.EncodeOfDecodeIsTheWord := fun _ _ => encode_of_decode

/-- Settles O5: each word is the encoding of its command, and the last one sets a reserved bit of START_TEMP. -/
theorem writtenOutWordsDecode : Obligations.WrittenOutWordsDecode :=
  ⟨decode_encode .getId, decode_encode (.setConfig 0xFF#8), decode_encode (.startTemp true false),
    decode_encode (.startHum false true), decode_encode .waitConv, decode_encode .readResult,
    decode_encode (.compHum true), decode_encode .getLastHum, by decide⟩

/-- Settles O6: the two bytes are the word's fields, and a word is its two fields. -/
theorem serialisedWordHasTheOpByteFirst : Obligations.SerialisedWordHasTheOpByteFirst := fun w =>
  ⟨rfl, congrArg some (joinFields_fields w)⟩

end Sys2Proof
end

section
/-! ### The invariants that every step keeps (10_state.md R24, R27, R29; 20_memory.md R41 to R45) -/

namespace Sys2Proof.Machine

/-! What the decode stores is legal (10_state.md R24). -/

theorem toInt_ofInt_of_bounds {n : Int} (h : -2147483648 ≤ n) (h' : n ≤ 2147483647) :
    (BitVec.ofInt 32 n).toInt = n := by
  rw [BitVec.toInt_ofInt]
  exact Int.bmod_eq_of_le (by omega) (by omega)

theorem toInt_ofInt_decodeT {c : Nat} (h : c < 65536) : (BitVec.ofInt 32 (decodeT c)).toInt = decodeT c := by
  obtain ⟨hlow, hhigh⟩ := decodeT_bounds h
  exact toInt_ofInt_of_bounds (by omega) (by omega)

theorem toInt_ofInt_decodeH {c : Nat} (h : c < 65536) : (BitVec.ofInt 32 (decodeH c)).toInt = decodeH c := by
  obtain ⟨hlow, hhigh⟩ := decodeH_bounds h
  exact toInt_ofInt_of_bounds (by omega) (by omega)

theorem legalLastT_decodeT {c : Nat} (h : c < 65536) : LegalLastT (BitVec.ofInt 32 (decodeT c)) :=
  .inr ⟨c >>> 2, by omega, toInt_ofInt_decodeT h⟩

theorem legalLastH_decodeH {c : Nat} (h : c < 65536) : LegalLastH (BitVec.ofInt 32 (decodeH c)) :=
  .inr ⟨c >>> 4, by omega, toInt_ofInt_decodeH h⟩

section
variable {s t : State} {r : Response} {new : List BusEvent}

theorem ReadingsKept.legal (h : ReadingsKept s t) (hs : LegalReadings s) : LegalReadings t := by
  obtain ⟨hT, hH⟩ := h
  rwa [LegalReadings, hT, hH]

theorem ReadResultEffect.legalReadings (h : ReadResultEffect s t r new) (hs : LegalReadings s) : LegalReadings t := by
  obtain ⟨hsT, hsH⟩ := hs
  rcases h with ⟨hkept, -, -⟩ | ⟨b0, b1, cfg, -, ⟨-, hT, hH, -⟩ | ⟨-, hH, hT, -⟩⟩
  · exact hkept.legal ⟨hsT, hsH⟩
  · exact ⟨hT ▸ legalLastT_decodeT (adcCode_lt b0 b1), hH ▸ hsH⟩
  · exact ⟨hT ▸ hsT, hH ▸ legalLastH_decodeH (adcCode_lt b0 b1)⟩

/-- READ_RESULT is the one command that can change a stored reading. -/
theorem ExecEffect.readingsKept {i : Instr} (h : ExecEffect i s t r new) (hi : i ≠ .readResult) : ReadingsKept s t := by
  cases i with
  | readResult => exact absurd rfl hi
  | getId | getStatus | getConfig | setConfig | startTemp | startHum | isConverting | waitConv => exact h.1
  | compHum | getLastTemp | getLastHum => exact h.1

end

/-- Settles O48: an idle step, an illegal word and every command but READ_RESULT keep both readings; READ_RESULT stores
a decoded code. -/
theorem stepKeepsTheReadingsLegal : Obligations.StepKeepsTheReadingsLegal := by
  intro s t hs h
  rcases step_cases h with ⟨-, rfl⟩ | ⟨w, -, -, rfl⟩ | ⟨w, i, -, -, hexec⟩
  · exact hs
  · exact ReadingsKept.legal ⟨raiseIllegal_lastT s, raiseIllegal_lastH s⟩ hs
  · obtain ⟨r, new, -, heffect⟩ := exec_effect hexec
    by_cases hi : i = .readResult
    · subst hi
      exact ReadResultEffect.legalReadings heffect hs
    · exact (heffect.readingsKept hi).legal hs

/-- Settles O49: the events of a step are legal calls, to the same ADDR as before. -/
theorem stepKeepsTheTraceLegal : Obligations.StepKeepsTheTraceLegal := by
  intro s t hs h
  obtain ⟨haddr, -, new, htrace, hnew⟩ := step_keeps_addr_params_adds_legalCalls h
  rw [LegalTrace, htrace, haddr]
  exact List.forall_mem_append.mpr ⟨hs, hnew⟩

theorem lt_length_of_fetch {s : State} {w : CmdWord} (h : s.fetch = some w) : s.pc < s.program.length :=
  (List.getElem?_eq_some_iff.mp h).1

/-- Every presented word is answered by one response, in the same sequence of words. -/
theorem step_responds {s t : State} {w : CmdWord} (hfetch : s.fetch = some w) (h : step s = .next t) :
    ∃ r, RespondsWith s t r ∧ t.program = s.program := by
  cases hdecode : decode w with
  | none =>
    rw [step_of_illegal hfetch hdecode] at h
    cases h
    exact ⟨_, ⟨raiseIllegal_responses s, raiseIllegal_pc s⟩, raiseIllegal_program s⟩
  | some i =>
    rw [step_of_decode hfetch hdecode] at h
    obtain ⟨r, new, ⟨hresponds, -, -, hprogram, -⟩, -⟩ := exec_effect h
    exact ⟨r, hresponds, hprogram⟩

/-- Settles O12: a presented word is answered, and past the end of the sequence none is fetched. -/
theorem everyPresentedWordAdvancesPcByOne : Obligations.EveryPresentedWordAdvancesPcByOne := by
  refine fun s t h => ⟨fun hlt => ?presented, fun hle => ?idle⟩
  case presented =>
    obtain ⟨r, ⟨-, hpc⟩, hprogram⟩ := step_responds (List.getElem?_eq_getElem hlt) h
    exact ⟨hpc, hprogram⟩
  case idle =>
    rw [step_of_idle (List.getElem?_eq_none hle)] at h
    cases h
    rfl

/-- Settles O50: an idle step changes nothing, and an answered word adds one response and one to pc. -/
theorem stepKeepsOneResponsePerCommand : Obligations.StepKeepsOneResponsePerCommand := by
  intro s t hs h
  cases hfetch : s.fetch with
  | none =>
    rw [step_of_idle hfetch] at h
    cases h
    exact hs
  | some w =>
    obtain ⟨hlen, -⟩ := hs
    obtain ⟨r, ⟨hresponses, hpc⟩, hprogram⟩ := step_responds hfetch h
    rw [ResponsesMatchPc, hresponses, hpc, hprogram, List.length_append, List.length_singleton, hlen]
    exact ⟨rfl, lt_length_of_fetch hfetch⟩

/-! ### The phase agrees with the writes (41_conversion_sequencing.md R108, R109) -/

/-- PHASE speaks of a conversion of the quantity `q`. -/
def Phase.Concerns (p : Phase) (q : Quantity) : Prop := p = .converting q ∨ p = .ready q ∨ p = .timedOut q

theorem phaseMatchesWrites_iff (s : State) : PhaseMatchesWrites s ↔ ∀ q, s.phase.Concerns q → LastWriteStarted s q :=
  Iff.rfl

section
variable {p : Phase} {q q' : Quantity}

theorem Phase.concerns_converting_iff : (Phase.converting q').Concerns q ↔ q' = q := by simp [Phase.Concerns]

theorem Phase.not_concerns_idle : ¬ Phase.idle.Concerns q := by simp [Phase.Concerns]

theorem Phase.not_concerns_unknown : ¬ Phase.unknown.Concerns q := by simp [Phase.Concerns]

/-! An observation keeps the quantity. -/

theorem Phase.concerns_of_observeReady (h : (observeReady p).Concerns q) : p.Concerns q := by
  cases p <;> simp_all [Phase.Concerns, observeReady]

theorem Phase.concerns_of_observeTimeout (h : (observeTimeout p).Concerns q) : p.Concerns q := by
  cases p <;> simp_all [Phase.Concerns, observeTimeout]

theorem afterSetConfig_concerns {cfg : Byte} (h : (afterSetConfig cfg p).Concerns q) :
    startBit cfg = true ∧ quantityOf cfg = q := by
  cases hstart : startBit cfg with
  | true =>
    rw [afterSetConfig_of_start hstart] at h
    exact ⟨rfl, Phase.concerns_converting_iff.mp h⟩
  | false =>
    rw [afterSetConfig_of_no_start hstart] at h
    split at h
    · exact absurd h Phase.not_concerns_idle
    · exact absurd h Phase.not_concerns_unknown

end

theorem startBit_cfgStart (q : Quantity) (fast heat : Bool) : startBit (cfgStart q fast heat) = true := by
  cases q <;> cases fast <;> cases heat <;> decide

theorem quantityOf_cfgStart (q : Quantity) (fast heat : Bool) : quantityOf (cfgStart q fast heat) = q := by
  cases q <;> cases fast <;> cases heat <;> decide

/-! Which commands write CONFIG, and what they write. -/

/-- The byte a command writes to CONFIG, none for a command that writes nothing (20_memory.md R45). -/
def configByte : Instr → Option Byte
  | .setConfig cfg => some cfg
  | .startTemp fast heat => some (cfgStart .temp fast heat)
  | .startHum fast heat => some (cfgStart .hum fast heat)
  | .getId | .getStatus | .getConfig | .isConverting | .waitConv | .readResult => none
  | .compHum _ | .getLastTemp | .getLastHum => none

section
variable {s t : State} {r : Response} {new : List BusEvent} {i : Instr}

theorem ByteReadEffect.noConfigWrite {k : ReadKind} {reg : RegAddr} (h : ByteReadEffect k reg s r new) :
    NoConfigWriteBetween new := by
  obtain ⟨hold, reply, rfl⟩ := h.events_eq
  simp [NoConfigWriteBetween]

theorem PollEffect.noConfigWrite (h : PollEffect s r new) : NoConfigWriteBetween new := by
  obtain ⟨hold, reply, rfl⟩ := h.events_eq
  simp [NoConfigWriteBetween]

theorem WaitEffect.noConfigWrite (h : WaitEffect s r new) : NoConfigWriteBetween new := by
  intro dev reg data ok he
  rcases h.forall_sleep_or_readStatus _ he with he | ⟨hold, reply, he⟩ <;> cases he

theorem ReadResultEffect.noConfigWrite (h : ReadResultEffect s t r new) : NoConfigWriteBetween new := by
  rcases h.events_eq with ⟨hold, rfl⟩ | ⟨hold, hold', b0, b1, reply, rfl⟩ <;> simp [NoConfigWriteBetween]

theorem ExecEffect.noConfigWrite (h : ExecEffect i s t r new) (hi : configByte i = none) :
    NoConfigWriteBetween new := by
  cases i with
  | setConfig | startTemp | startHum => cases hi
  | getId | getStatus | getConfig => exact h.2.noConfigWrite
  | isConverting => exact h.2.noConfigWrite
  | waitConv => exact h.2.noConfigWrite
  | readResult => exact ReadResultEffect.noConfigWrite h
  | compHum | getLastTemp | getLastHum =>
    obtain ⟨-, rfl, -⟩ := h
    exact fun _ _ _ _ => List.not_mem_nil

theorem ExecEffect.configWrite {data : Byte} (h : ExecEffect i s t r new) (hi : configByte i = some data) :
    ConfigWriteEffect data s r new := by
  cases i with
  | setConfig | startTemp | startHum => cases hi; exact h.2
  | getId | getStatus | getConfig | isConverting | waitConv | readResult => cases hi
  | compHum | getLastTemp | getLastHum => cases hi

end

section
variable {p : Phase} {q : Quantity} {i : Instr}

/-- A command that writes nothing brings the phase to no other quantity. -/
theorem concerns_of_nextPhase {r : Response} (hi : configByte i = none) (h : (nextPhase i r p).Concerns q) :
    p.Concerns q := by
  cases i with
  | setConfig | startTemp | startHum => cases hi
  | getId | getStatus | getConfig | compHum | getLastTemp | getLastHum => exact h
  | isConverting =>
    rw [nextPhase] at h
    split at h
    · exact Phase.concerns_of_observeReady h
    · exact h
  | waitConv =>
    rw [nextPhase] at h
    split at h
    · exact Phase.concerns_of_observeReady h
    · split at h
      · exact Phase.concerns_of_observeTimeout h
      · exact h
  | readResult =>
    rw [nextPhase] at h
    split at h
    · exact absurd h Phase.not_concerns_idle
    · exact h

theorem exists_command_of_configByte {data : Byte} (hi : configByte i = some data) :
    (∃ cfg, i = .setConfig cfg) ∨ (∃ f h, i = .startTemp f h) ∨ (∃ f h, i = .startHum f h) := by
  cases i <;> simp_all [configByte]

/-- After a write the phase concerns a quantity only where the write was a successful start of it. -/
theorem started_of_nextPhase_concerns {data : Byte} {ok : Bool} (hi : configByte i = some data)
    (h : (nextPhase i ⟨callStatus ok, boolValue ok⟩ p).Concerns q) :
    ok = true ∧ startBit data = true ∧ quantityOf data = q := by
  cases ok with
  | false =>
    have hunknown : nextPhase i ⟨callStatus false, boolValue false⟩ p = .unknown :=
      nextPhase_failedWrite (exists_command_of_configByte hi)
    exact absurd (hunknown ▸ h) Phase.not_concerns_unknown
  | true =>
    refine ⟨rfl, ?_⟩
    rcases exists_command_of_configByte hi with ⟨cfg, rfl⟩ | ⟨f, g, rfl⟩ | ⟨f, g, rfl⟩ <;> cases hi
    · exact afterSetConfig_concerns h
    · obtain rfl := Phase.concerns_converting_iff.mp h
      exact ⟨startBit_cfgStart .temp f g, quantityOf_cfgStart .temp f g⟩
    · obtain rfl := Phase.concerns_converting_iff.mp h
      exact ⟨startBit_cfgStart .hum f g, quantityOf_cfgStart .hum f g⟩

end

theorem LastWriteStarted.of_trace_eq {s t : State} {q : Quantity}
    (htrace : lastConfigWrite t.trace = lastConfigWrite s.trace) (h : LastWriteStarted s q) : LastWriteStarted t q := by
  rwa [LastWriteStarted, htrace]

theorem exec_keeps_phaseMatchesWrites {i : Instr} {s t : State} {r : Response} {new : List BusEvent}
    (hs : PhaseMatchesWrites s) (htrace : t.trace = s.trace ++ new) (heffect : ExecEffect i s t r new)
    (hphase : t.phase = nextPhase i r s.phase) : PhaseMatchesWrites t := by
  rw [phaseMatchesWrites_iff] at hs ⊢
  intro q hq
  rw [hphase] at hq
  cases hi : configByte i with
  | none =>
    refine LastWriteStarted.of_trace_eq ?_ (hs q (concerns_of_nextPhase hi hq))
    rw [htrace, lastConfigWrite_append_other _ _ (heffect.noConfigWrite hi)]
  | some data =>
    obtain ⟨ok, rfl, rfl⟩ := heffect.configWrite hi
    obtain ⟨rfl, hstart, hquantity⟩ := started_of_nextPhase_concerns hi hq
    exact ⟨data, by rw [htrace, lastConfigWrite_append_write], hstart, hquantity⟩

/-- Settles O51: an illegal word keeps the phase and the trace; a command without a CONFIG write keeps the quantity of
the phase and the last write; and a write makes the phase concern only what it started. -/
theorem stepKeepsThePhaseTrueToTheWrites : Obligations.StepKeepsThePhaseTrueToTheWrites := by
  intro s t hmatch hs h
  rcases step_cases h with ⟨-, rfl⟩ | ⟨w, hfetch, hdecode, rfl⟩ | ⟨w, i, hfetch, hdecode, hexec⟩
  · exact hs
  · rw [phaseMatchesWrites_iff, phase_raiseIllegal hmatch hfetch hdecode]
    exact hs
  · obtain ⟨r, new, ⟨hresponds, htrace, -, hprogram, -⟩, heffect⟩ := exec_effect hexec
    refine exec_keeps_phaseMatchesWrites hs htrace heffect ?_
    rw [phase_append hmatch hfetch hresponds hprogram, phaseAfter, hdecode]

/-! ### The heater (41_conversion_sequencing.md R107) -/

theorem ghostHeater_append_write (tr : List BusEvent) (dev : DevAddr) (reg : RegAddr) (data : Byte) (ok : Bool) :
    ghostHeater (tr ++ [.write dev reg data ok]) = if ok then some (heatBit data) else none := by
  rw [ghostHeater, lastConfigWrite_append_write]
  cases ok <;> rfl

theorem ghostHeater_append_other (tr : List BusEvent) {new : List BusEvent} (h : NoConfigWriteBetween new) :
    ghostHeater (tr ++ new) = ghostHeater tr := by
  rw [ghostHeater, ghostHeater, lastConfigWrite_append_other tr new h]

theorem heatBit_cfgStart (q : Quantity) (fast heat : Bool) : heatBit (cfgStart q fast heat) = heat := by
  cases q <;> cases fast <;> cases heat <;> decide

section
variable {s t : State} {i : Instr}

theorem exec_heater_of_write {data : Byte} (h : exec i s = .next t) (hi : configByte i = some data) :
    ∃ ok, t.trace = s.trace ++ [.write s.addr 0x03#8 data ok] ∧
      ghostHeater t.trace = if ok then some (heatBit data) else none := by
  obtain ⟨r, new, ⟨-, htrace, -⟩, heffect⟩ := exec_effect h
  obtain ⟨ok, rfl⟩ := (heffect.configWrite hi).events_eq
  exact ⟨ok, htrace, by rw [htrace, ghostHeater_append_write]⟩

theorem exec_keeps_heater (h : exec i s = .next t) (hi : configByte i = none) :
    ghostHeater t.trace = ghostHeater s.trace := by
  obtain ⟨r, new, ⟨-, htrace, -⟩, heffect⟩ := exec_effect h
  rw [htrace, ghostHeater_append_other s.trace (heffect.noConfigWrite hi)]

end

/-- Settles O27: a command's CONFIG write, if it makes one, is its last event, and HEAT of a start is its flag. -/
theorem heaterChangesOnlyByConfigWrites : Obligations.HeaterChangesOnlyByConfigWrites := by
  intro i s t h
  cases i with
  | setConfig cfg => exact exec_heater_of_write h rfl
  | startTemp fast heat =>
    have hwrite := exec_heater_of_write h rfl
    rwa [heatBit_cfgStart] at hwrite
  | startHum fast heat =>
    have hwrite := exec_heater_of_write h rfl
    rwa [heatBit_cfgStart] at hwrite
  | getId | getStatus | getConfig | isConverting | waitConv | readResult => exact exec_keeps_heater h rfl
  | compHum | getLastTemp | getLastHum => exact exec_keeps_heater h rfl

end Sys2Proof.Machine
end

section
/-! ### The rows of the opcode map (30_encoding.md R62) -/

namespace Sys2Proof

theorem and_joinFields (op opd op' opd' : Byte) :
    joinFields op opd &&& joinFields op' opd' = joinFields (op &&& op') (opd &&& opd') := by
  rw [← joinFields_fields (joinFields op opd &&& joinFields op' opd')]
  congr 1
  · rw [opField, BitVec.extractLsb'_and, ← opField, ← opField, opField_joinFields, opField_joinFields]
  · rw [opdField, BitVec.extractLsb'_and, ← opdField, ← opdField, opdField_joinFields, opdField_joinFields]

theorem joinFields_inj {op opd op' opd' : Byte} :
    joinFields op opd = joinFields op' opd' ↔ op = op' ∧ opd = opd' := by
  refine ⟨fun h => ⟨?_, ?_⟩, fun ⟨hop, hopd⟩ => hop ▸ hopd ▸ rfl⟩
  · rw [← opField_joinFields op opd, h, opField_joinFields]
  · rw [← opdField_joinFields op opd, h, opdField_joinFields]

/-- Every row's match holds an OP byte over a zero operand byte, and its mask keeps all of OP. -/
theorem selectsRow_iff (w : CmdWord) (name : String) (op mask : Byte) :
    selectsRow w (name, joinFields op 0x00#8, joinFields 0xFF#8 mask) = true ↔
      opField w = op ∧ opdField w &&& mask = 0x00#8 := by
  have hones : opField w &&& 0xFF#8 = opField w := BitVec.and_allOnes
  rw [selectsRow, beq_iff_eq, ← joinFields_fields w, and_joinFields, joinFields_inj, hones, opField_joinFields,
    opdField_joinFields]

/-- The row of an OP byte, its name and the reserved bits of its format. -/
def rowOf (name : String) (op : Byte) (f : Format) : String × CmdWord × CmdWord :=
  (name, joinFields op 0x00#8, joinFields 0xFF#8 f.reservedMask)

theorem opcodeRows_eq : opcodeRows =
    [rowOf "GET_ID" 0x01#8 .z, rowOf "GET_STATUS" 0x02#8 .z, rowOf "GET_CONFIG" 0x03#8 .z,
      rowOf "SET_CONFIG" 0x04#8 .i8, rowOf "START_TEMP" 0x10#8 .fh, rowOf "START_HUM" 0x11#8 .fh,
      rowOf "IS_CONVERTING" 0x12#8 .z, rowOf "WAIT_CONV" 0x13#8 .z, rowOf "READ_RESULT" 0x14#8 .z,
      rowOf "COMP_HUM" 0x20#8 .p, rowOf "GET_LAST_TEMP" 0x21#8 .z, rowOf "GET_LAST_HUM" 0x22#8 .z] := by
  decide

theorem selectsRow_rowOf_iff (w : CmdWord) (name : String) (op : Byte) (f : Format) :
    selectsRow w (rowOf name op f) = true ↔ opField w = op ∧ f.operandWf (opdField w) = true := by
  rw [rowOf, selectsRow_iff, Format.operandWf, beq_iff_eq]

@[simp] theorem rowOf_name (name : String) (op : Byte) (f : Format) : (rowOf name op f).1 = name := rfl

theorem selectsNoRow_of_unassigned {w : CmdWord} (hop : opField w ∉ Machine.assignedOpcodes) :
    opcodeRows.filter (selectsRow w) = [] := by
  simp_all [opcodeRows_eq, Machine.assignedOpcodes, selectsRow_rowOf_iff]

/-- A row selected under a test, beside the decoder's arm under the same test. -/
theorem selectedRow_matches_arm (c : Prop) [Decidable c] {row : String × CmdWord × CmdWord} {i : Instr}
    (hname : i.mnemonic = row.1) :
    (if c then [row] else []).length ≤ 1 ∧
      (if c then some i else none).map Instr.mnemonic = (if c then [row] else []).head?.map fun row => row.1 := by
  split
  · exact ⟨Nat.le_refl 1, congrArg some hname⟩
  · exact ⟨Nat.zero_le 1, rfl⟩

/-- Settles O4: an assigned OP leaves one row whose match can hold, and its mask is that OP's test of the operand byte;
any other OP leaves none. -/
theorem decoderSelectsTheMatchingRow : Obligations.DecoderSelectsTheMatchingRow := by
  intro w
  rw [← List.head?_filter]
  by_cases hop : opField w ∈ Machine.assignedOpcodes
  · rw [decode_eq_arms, opcodeRows_eq]
    simp only [Machine.assignedOpcodes, List.mem_cons, List.not_mem_nil, or_false] at hop
    rcases hop with hop | hop | hop | hop | hop | hop | hop | hop | hop | hop | hop | hop <;>
      simp only [hop, List.filter_cons, List.filter_nil, selectsRow_rowOf_iff, z_wf_iff, i8_wf, fh_wf_iff_and,
        p_wf_iff_and, reduceIte, BitVec.reduceEq, false_and, true_and]
    case inr.inr.inr.inl => exact ⟨Nat.le_refl 1, rfl⟩
    all_goals exact selectedRow_matches_arm _ rfl
  · rw [selectsNoRow_of_unassigned hop, (Machine.decode_eq_none_iff w).mpr (.inl hop)]
    exact ⟨Nat.zero_le 1, rfl⟩

end Sys2Proof
end

section
/-! ### The step, the device and reset (60_exceptions.md R200, 20_memory.md R46, 70_reset_and_hazards.md R231) -/

namespace Sys2Proof.Machine

theorem exec_answers_next (i : Instr) (s : State) : ∃ t, exec i s = .next t := by
  cases i <;> exact ⟨_, rfl⟩

/-- Settles O10: every command's meaning is a next state, and so are the two other endings of a step. -/
theorem everyStepAnswersANextState : Obligations.EveryStepAnswersANextState := by
  refine ⟨exec_answers_next, fun s => ?_⟩
  cases hfetch : s.fetch with
  | none => exact ⟨s, step_of_idle hfetch⟩
  | some w =>
    cases hdecode : decode w with
    | none => exact ⟨raiseIllegal s, step_of_illegal hfetch hdecode⟩
    | some i => rw [step_of_decode hfetch hdecode]; exact exec_answers_next i s

/-- Settles O9: the three endings of a step; a placed word is the one fetched, and an encoding is decoded back. -/
theorem stepRunsTheDecodedCommand : Obligations.StepRunsTheDecodedCommand := by
  refine ⟨fun _ _ _ => step_of_decode, fun _ => step_of_idle, fun s i => ?_⟩
  refine step_of_decode (fetch_withFetchWord s 16 (encode i).toNat) ?_
  rw [BitVec.ofNat_toNat, BitVec.setWidth_eq, decode_encode]

/-- Settles O14: the reset sets these fields alone; without a response the phase is IDLE. -/
theorem resetTouchesNoDevice : Obligations.ResetTouchesNoDevice := fun s ws =>
  ⟨rfl, phase_of_responses_nil (applyReset_responses s ws), congrArg ghostHeater (applyReset_trace s ws)⟩

/-- Settles O15: list the wanted answer. -/
theorem theDeviceMayAnswerAnything : Obligations.TheDeviceMayAnswerAnything := fun s c a =>
  ⟨[a], answerTo_cons { s with answers := [a] } a [] c rfl⟩

/-- Settles O52: the readings are their sentinels, the trace and the responses are empty, and the phase is IDLE. -/
theorem resetHasEveryInvariant : Obligations.ResetHasEveryInvariant := by
  refine fun p => ⟨⟨.inl rfl, .inl rfl⟩, List.forall_mem_nil _, ⟨rfl, Nat.le_refl 0⟩, ?_, rfl⟩
  rw [phaseMatchesWrites_iff, phase_of_responses_nil (resetWith_responses p)]
  exact fun q hq => absurd hq Phase.not_concerns_idle

end Sys2Proof.Machine
end


section
/-! ### The values of the decode (42_measurement_decode.md R131 to R133, R135, R138; 10_state.md R24) -/

namespace Sys2Proof.Machine

theorem decodeT_neg_iff (c : Nat) : decodeT c < 0 ↔ c ≤ 0x18FF := by
  rw [decodeT_eq]; omega

theorem decodeH_neg_iff (c : Nat) : decodeH c < 0 ↔ c ≤ 0x17FF := by
  rw [decodeH_eq]; omega

/-- One step of bits 15:2 is 3.125 units, so no two values coincide. -/
theorem decodeT_eq_iff (c d : Nat) : decodeT c = decodeT d ↔ c / 4 = d / 4 := by
  rw [decodeT_eq, decodeT_eq]; omega

theorem decodeH_eq_iff (c d : Nat) : decodeH c = decodeH d ↔ c / 16 = d / 16 := by
  rw [decodeH_eq, decodeH_eq]; omega

theorem roundTenth_decodeT_bounds {c : Nat} (h : c < 65536) :
    -500 ≤ roundTenth (decodeT c) ∧ roundTenth (decodeT c) ≤ 4620 := by
  obtain ⟨hlow, hhigh⟩ := decodeT_bounds h
  rw [roundTenth_eq]; split <;> omega

theorem roundTenth_decodeH_bounds {c : Nat} (h : c < 65536) :
    -240 ≤ roundTenth (decodeH c) ∧ roundTenth (decodeH c) ≤ 2319 := by
  obtain ⟨hlow, hhigh⟩ := decodeH_bounds h
  rw [roundTenth_eq]; split <;> omega

/-- 1599 steps of 3.125 are 4996.875, and 1600 steps are 5000. -/
theorem decodeT_add_ne_4999 (c : Nat) : decodeT c + 5000 ≠ 4999 := by
  rw [decodeT_eq]; omega

/-- Settles O30: the bounds and boundaries of the two decodes. -/
theorem decodeRangesAndSignBoundaries : Obligations.DecodeRangesAndSignBoundaries := by
  refine ⟨fun c hc => ?temp, fun c hc => ?hum, fun c d _ _ => decodeT_eq_iff c d, fun c d _ _ => decodeH_eq_iff c d,
    fun c _ => decodeT_add_ne_4999 c⟩
  case temp =>
    obtain ⟨hlow, hhigh⟩ := decodeT_bounds hc
    obtain ⟨hlow', hhigh'⟩ := roundTenth_decodeT_bounds hc
    exact ⟨hlow, hhigh, hlow', hhigh', decodeT_neg_iff c⟩
  case hum =>
    obtain ⟨hlow, hhigh⟩ := decodeH_bounds hc
    obtain ⟨hlow', hhigh'⟩ := roundTenth_decodeH_bounds hc
    exact ⟨hlow, hhigh, hlow', hhigh', decodeH_neg_iff c⟩

/-- Settles O31: 55555 is above the temperature's range, and 1111 lies between two steps of the humidity. -/
theorem noDecodedValueIsItsSentinel : Obligations.NoDecodedValueIsItsSentinel := by
  refine ⟨fun c hc heq => ?temp, fun c hc heq => ?hum⟩
  case temp =>
    have hvalue : decodeT c = 55555 := (toInt_ofInt_decodeT hc).symm.trans (congrArg BitVec.toInt heq)
    obtain ⟨-, hhigh⟩ := decodeT_bounds hc
    omega
  case hum =>
    have hvalue : decodeH c = 1111 := (toInt_ofInt_decodeH hc).symm.trans (congrArg BitVec.toInt heq)
    rw [decodeH_eq] at hvalue
    omega

end Sys2Proof.Machine
end

section
/-! ### What each command answers, and what changes a reading (60_exceptions.md R201, R205; 10_state.md R22, R23) -/

namespace Sys2Proof.Machine

section
variable {s t : State} {r : Response} {new : List BusEvent}

/-! The responses of each effect. -/

theorem ByteReadEffect.response {k : ReadKind} {reg : RegAddr} (h : ByteReadEffect k reg s r new) :
    r.status = .ok ∧ r.value.toNat < 256 ∨ r = ⟨.busError, 0xFF#32⟩ := by
  obtain ⟨_ | b, -, rfl⟩ := h
  · exact .inr rfl
  · exact .inl ⟨rfl, (zext32_toNat b).symm ▸ b.isLt⟩

theorem ConfigWriteEffect.response {data : Byte} (h : ConfigWriteEffect data s r new) :
    r = ⟨.ok, 1#32⟩ ∨ r = ⟨.busError, 0#32⟩ := by
  obtain ⟨_ | _, -, rfl⟩ := h
  · exact .inr rfl
  · exact .inl rfl

theorem PollEffect.response (h : PollEffect s r new) :
    r = ⟨.ok, 0#32⟩ ∨ r = ⟨.ok, 1#32⟩ ∨ r = ⟨.busError, 1#32⟩ := by
  obtain ⟨_ | b, -, rfl⟩ := h
  · exact .inr (.inr rfl)
  · cases hbusy : busy s.params.rdyPolarity (some b) with
    | false => exact .inl (by simp [hbusy, boolValue])
    | true => exact .inr (.inl (by simp [hbusy, boolValue]))

theorem WaitEffect.response (h : WaitEffect s r new) :
    r.status = .ok ∧ r.value.toNat < 50 ∨ r = ⟨.timeout, 50#32⟩ := by
  obtain ⟨busies, -, ⟨hlen, rfl, -⟩ | ⟨-, rfl, -⟩⟩ := h
  · refine .inl ⟨rfl, ?_⟩
    rw [BitVec.toNat_ofNat, Nat.mod_eq_of_lt (by omega)]
    exact hlen
  · exact .inr rfl

theorem sext32_toInt_bounds {n : Int} (h : -500 ≤ n) (h' : n ≤ 4620) :
    -500 ≤ (sext32 n).toInt ∧ (sext32 n).toInt ≤ 4620 := by
  rw [sext32_toInt n (by omega) (by omega)]
  exact ⟨h, h'⟩

theorem ReadResultEffect.response (h : ReadResultEffect s t r new) :
    r.status = .ok ∧ -500 ≤ r.value.toInt ∧ r.value.toInt ≤ 4620 ∨ r = ⟨.busError, 12345#32⟩ := by
  rcases h with ⟨-, rfl, -⟩ | ⟨b0, b1, cfg, -, ⟨-, -, -, rfl⟩ | ⟨-, -, -, rfl⟩⟩
  · exact .inr rfl
  · obtain ⟨hlow, hhigh⟩ := roundTenth_decodeT_bounds (adcCode_lt b0 b1)
    exact .inl ⟨rfl, sext32_toInt_bounds hlow hhigh⟩
  · obtain ⟨hlow, hhigh⟩ := roundTenth_decodeH_bounds (adcCode_lt b0 b1)
    exact .inl ⟨rfl, sext32_toInt_bounds (by omega) (by omega)⟩

end

/-- Settles O46: the response of each effect, and that of an illegal word. -/
theorem eachCommandReportsOnlyItsStatuses : Obligations.EachCommandReportsOnlyItsStatuses := by
  refine ⟨⟨rfl, rfl, rfl, rfl⟩, fun i s t h => ?command, fun s t w hfetch hdecode h => ?illegal⟩
  case command =>
    obtain ⟨r, new, ⟨hresponds, -⟩, heffect⟩ := exec_effect h
    refine ⟨r, hresponds, ?_⟩
    cases i with
    | getId | getStatus | getConfig => exact heffect.2.response
    | setConfig | startTemp | startHum => exact heffect.2.response
    | isConverting => exact heffect.2.response
    | waitConv => exact heffect.2.response
    | readResult => exact ReadResultEffect.response heffect
    | compHum =>
      obtain ⟨-, -, rfl⟩ := heffect
      rfl
    | getLastTemp | getLastHum =>
      obtain ⟨-, -, hr⟩ := heffect
      exact hr
  case illegal =>
    rw [step_of_illegal hfetch hdecode] at h
    cases h
    exact ⟨raiseIllegal_responses s, raiseIllegal_pc s⟩

/-! Only READ_RESULT changes a reading. -/

section
variable {s t : State}

theorem step_keeps_readings (h : step s = .next t) (hfetch : s.fetch.bind decode ≠ some .readResult) :
    ReadingsKept s t := by
  rcases step_cases h with ⟨-, rfl⟩ | ⟨w, -, -, rfl⟩ | ⟨w, i, hw, hdecode, hexec⟩
  · exact ⟨rfl, rfl⟩
  · exact ⟨raiseIllegal_lastT s, raiseIllegal_lastH s⟩
  · obtain ⟨r, new, -, heffect⟩ := exec_effect hexec
    refine heffect.readingsKept fun hi => hfetch ?_
    rw [hw, Option.bind_some, hdecode, hi]

theorem step_is_readResult_of_changed (h : step s = .next t) (hchanged : ¬ ReadingsKept s t) :
    s.fetch.bind decode = some .readResult ∧ exec .readResult s = .next t := by
  have hfetch : s.fetch.bind decode = some .readResult := by
    by_contra hother
    exact hchanged (step_keeps_readings h hother)
  obtain ⟨w, hw, hdecode⟩ := Option.bind_eq_some_iff.mp hfetch
  exact ⟨hfetch, (step_of_decode hw hdecode).symm.trans h⟩

/-- A READ_RESULT that changed a reading read CONFIG back last, kept the register its TEMP bit did not select, and
answered OK. -/
theorem readResult_stores_selected (h : exec .readResult s = .next t) (hchanged : ¬ ReadingsKept s t) :
    ∃ cfg, t.trace.getLast? = some (.read s.addr 0x03#8 1 (Config.readHold .resultConfig) (some [cfg])) ∧
      (cfg.getLsbD 4 = true → t.lastH = s.lastH) ∧ (cfg.getLsbD 4 = false → t.lastT = s.lastT) ∧
      ∃ v, t.responses = s.responses ++ [⟨.ok, v⟩] := by
  obtain ⟨r, new, ⟨⟨hresponses, -⟩, htrace, -⟩, heffect⟩ := exec_effect h
  rcases heffect with ⟨hkept, -⟩ | ⟨b0, b1, cfg, rfl, hstored⟩
  · exact absurd hkept hchanged
  · refine ⟨cfg, ?_, ?_⟩
    · rw [htrace, List.getLast?_append]
      rfl
    · rcases hstored with ⟨htemp, -, hH, rfl⟩ | ⟨hhum, -, hT, rfl⟩
      · exact ⟨fun _ => hH, fun hclear => absurd (htemp.symm.trans hclear) nofun, _, hresponses⟩
      · exact ⟨fun hset => absurd (hhum.symm.trans hset) nofun, fun _ => hT, _, hresponses⟩

end

/-- Settles O34: another command keeps the readings, and a READ_RESULT that changed one answered OK, not BUS_ERROR. -/
theorem readingsChangeOnlyByReadResult : Obligations.ReadingsChangeOnlyByReadResult := by
  intro s t h
  refine ⟨fun hne => ?changed, fun v hbusError => ?busError⟩
  case changed =>
    obtain ⟨hfetch, hread⟩ := step_is_readResult_of_changed h fun ⟨hT, hH⟩ => hne.elim (· hT) (· hH)
    exact ⟨hfetch, readResult_stores_selected hread fun ⟨hT, hH⟩ => hne.elim (· hT) (· hH)⟩
  case busError =>
    by_contra hchanged
    obtain ⟨-, hread⟩ := step_is_readResult_of_changed h hchanged
    obtain ⟨-, -, -, -, value, hok⟩ := readResult_stores_selected hread hchanged
    exact absurd (List.append_cancel_left (hbusError.symm.trans hok)) nofun

/-! ### COMP_HUM repeats its answer (43_humidity_compensation.md R165) -/

/-- What COMP_HUM's answer depends on is the same in both states. -/
def CompHumInputsKept (s t : State) : Prop := ReadingsKept s t ∧ t.params.floatFormat = s.params.floatFormat

theorem compHum_same_response (hp : Bool) {s s' : State} (h : CompHumInputsKept s s') :
    ∃ r t t', exec (.compHum hp) s = .next t ∧ exec (.compHum hp) s' = .next t' ∧
      RespondsWith s t r ∧ RespondsWith s' t' r := by
  obtain ⟨⟨hT, hH⟩, hformat⟩ := h
  have hs' := exec_compHum hp s'
  rw [hT, hH, hformat] at hs'
  exact ⟨_, _, _, exec_compHum hp s, hs', ⟨rfl, rfl⟩, ⟨rfl, rfl⟩⟩

theorem step_keeps_compHumInputs {s t : State} (h : step s = .next t)
    (hfetch : s.fetch.bind decode ≠ some .readResult) : CompHumInputsKept s t := by
  obtain ⟨-, hparams, -⟩ := step_keeps_addr_params_adds_legalCalls h
  exact ⟨step_keeps_readings h hfetch, by rw [hparams]⟩

theorem run_succ_of_step {s t : State} (h : step s = .next t) (k : Nat) : core.run (k + 1) s = core.run k t := by
  have hcore : core.step s = .next t := h
  simp only [Host.Core.run, hcore]

theorem run_keeps_compHumInputs {n : Nat} {s s' : State} (h : core.run n s = .next s')
    (hfetch : ∀ (k : Nat) (u : State), k < n → core.run k s = .next u → u.fetch.bind decode ≠ some .readResult) :
    CompHumInputsKept s s' := by
  induction n generalizing s with
  | zero => cases h; exact ⟨⟨rfl, rfl⟩, rfl⟩
  | succ n ih =>
    obtain ⟨u, hstep⟩ := everyStepAnswersANextState.2 s
    rw [run_succ_of_step hstep] at h
    have hrest := ih h fun k v hk hrun => hfetch (k + 1) v (by omega) (run_succ_of_step hstep k ▸ hrun)
    have hfirst := step_keeps_compHumInputs hstep (hfetch 0 s (by omega) rfl)
    obtain ⟨⟨hT, hH⟩, hformat⟩ := hrest
    obtain ⟨⟨hT', hH'⟩, hformat'⟩ := hfirst
    exact ⟨⟨hT.trans hT', hH.trans hH'⟩, hformat.trans hformat'⟩

/-- Settles O37: the answer is a function of the inputs, and each step that fetches no READ_RESULT keeps them. -/
theorem compHumRepeatsUntilAReadResult : Obligations.CompHumRepeatsUntilAReadResult :=
  ⟨fun hp _ _ hT hH hformat => compHum_same_response hp ⟨⟨hT, hH⟩, hformat⟩,
    fun hp _ _ _ hrun hfetch => compHum_same_response hp (run_keeps_compHumInputs hrun hfetch)⟩

/-! ### Well-sequenced reads (41_conversion_sequencing.md R109) -/

theorem tempBit_eq_of_quantityOf {cfg : Byte} {q : Quantity} (h : quantityOf cfg = q) : tempBit cfg = (q == .temp) := by
  subst h
  cases htemp : tempBit cfg <;> simp [quantityOf, htemp]

/-- Settles O53: the last write started `q`, so the TEMP bit read back is the one of `q`, and the storing end takes its
path. -/
theorem wellSequencedReadStoresTheStartedQuantity : Obligations.WellSequencedReadStoresTheStartedQuantity := by
  intro s t q b0 b1 cfg c1 hwrites hready hdata hconfig howner h
  obtain ⟨start, hlast, -, hquantity⟩ := hwrites q (.inr (.inl hready))
  have htemp : tempBit cfg = (q == .temp) := (howner start hlast).trans (tempBit_eq_of_quantityOf hquantity)
  rw [exec_readResult, readResultCommand_of_ok hdata hconfig] at h
  cases q with
  | temp =>
    rw [storeResult_of_temp htemp] at h
    cases h
    exact ⟨rfl, rfl⟩
  | hum =>
    rw [storeResult_of_hum htemp] at h
    cases h
    exact ⟨rfl, rfl⟩

end Sys2Proof.Machine
end

section
/-! ### Rounding to nearest, ties to even (00_scope.md R8) -/

namespace Sys2Proof.Machine

/-! The nearest integer. -/

theorem nearestEven_le_abs_sub (y : Rat) (k : Int) : |y - (nearestEven y : Rat)| ≤ |y - (k : Rat)| := by
  have hhalf := nearestEven_error y
  by_cases hk : k = nearestEven y
  · rw [hk]
  · have hgap : (1 : Rat) ≤ |(k : Rat) - (nearestEven y : Rat)| := by
      exact_mod_cast Int.one_le_abs (sub_ne_zero.mpr hk)
    have htriangle := abs_sub_le (k : Rat) y (nearestEven y : Rat)
    rw [abs_sub_comm (k : Rat) y] at htriangle
    linarith

/-- Only a fraction of exactly a half is as near to another integer, and there the even one is taken. -/
theorem nearestEven_even_of_tie {y : Rat} {k : Int} (hk : k ≠ nearestEven y)
    (htie : |y - (k : Rat)| = |y - (nearestEven y : Rat)|) : Even (nearestEven y) := by
  have hgap : (1 : Rat) ≤ |(k : Rat) - (nearestEven y : Rat)| := by
    exact_mod_cast Int.one_le_abs (sub_ne_zero.mpr hk)
  have htriangle := abs_sub_le (k : Rat) y (nearestEven y : Rat)
  rw [abs_sub_comm (k : Rat) y, htie] at htriangle
  have hhalf : 1 / 2 ≤ |y - (nearestEven y : Rat)| := by linarith
  have hlow : (y.floor : Rat) ≤ y := Int.floor_le y
  have hhigh : y < (y.floor : Rat) + 1 := Int.lt_floor_add_one y
  simp only [nearestEven, litHalf_eq] at hhalf ⊢
  split_ifs at hhalf ⊢ with hless hmore heven
  · rw [abs_of_nonneg (by linarith)] at hhalf
    linarith
  · push_cast at hhalf
    rw [abs_of_nonpos (by linarith)] at hhalf
    linarith
  · exact Int.even_iff.mpr heven
  · exact Int.even_add_one.mpr fun h => heven (Int.even_iff.mp h)

/-! The last place of a positive number. -/

section
variable {F : FloatFormat} {x : Rat}

theorem precision_pos (F : FloatFormat) : 1 ≤ precision F := by cases F <;> decide

theorem leastExponent_le_lastPlace (F : FloatFormat) (x : Rat) : leastExponent F ≤ lastPlace F x := le_max_left ..

/-- Above the subnormals the leading bit of `x` is `2 ^ (p - 1)` last places. -/
theorem pow2_floorLog2_eq (h : leastExponent F < lastPlace F x) :
    pow2 (floorLog2 x) = ((2 ^ (precision F - 1) : Int) : Rat) * pow2 (lastPlace F x) := by
  have hplace : lastPlace F x = floorLog2 x - ((precision F : Int) - 1) := by
    rw [lastPlace] at h ⊢
    omega
  have hp := precision_pos F
  rw [hplace, pow2_eq, pow2_eq]
  push_cast
  rw [← zpow_natCast, ← zpow_add₀ two_ne_zero]
  congr 1
  omega

theorem lt_two_pow_precision_mul (hx : 0 < x) :
    x < ((2 ^ precision F : Int) : Rat) * pow2 (lastPlace F x) := by
  obtain ⟨-, hhigh⟩ := floorLog2_spec x hx
  refine hhigh.trans_le ?_
  rw [pow2_eq, pow2_eq]
  push_cast
  rw [← zpow_natCast, ← zpow_add₀ two_ne_zero]
  refine zpow_le_zpow_right₀ one_le_two ?_
  have : floorLog2 x - ((precision F : Int) - 1) ≤ lastPlace F x := le_max_right ..
  omega

/-! Representable numbers. -/

theorem representable_zero (F : FloatFormat) : Representable F 0 :=
  ⟨0, leastExponent F, by simp, le_refl _, by simp⟩

theorem Representable.neg (h : Representable F x) : Representable F (-x) := by
  obtain ⟨m, e, hm, he, rfl⟩ := h
  exact ⟨-m, e, by rwa [abs_neg], he, by push_cast; ring⟩

/-- A significand of exactly `2 ^ p` is a power of two. -/
theorem representable_mul_pow2 {m e : Int} (hm : |m| ≤ 2 ^ precision F) (he : leastExponent F ≤ e) :
    Representable F ((m : Rat) * pow2 e) := by
  rw [pow2_eq]
  rcases hm.lt_or_eq with hlt | heq
  · exact ⟨m, e, hlt, he, rfl⟩
  · have hone : Representable F ((2 : Rat) ^ precision F * (2 : Rat) ^ e) := by
      refine ⟨1, precision F + e, ?_, by omega, ?_⟩
      · rw [abs_one]
        exact one_lt_pow₀ one_lt_two (Nat.one_le_iff_ne_zero.mp (precision_pos F))
      · rw [Int.cast_one, one_mul, zpow_add₀ two_ne_zero, zpow_natCast]
    rcases abs_choice m with h | h <;> rw [h] at heq
    · rw [heq]
      exact_mod_cast hone
    · rw [neg_eq_iff_eq_neg.mp heq]
      convert hone.neg using 1
      push_cast
      ring

/-- A representable number is a multiple of the last place of `x`, or it lies below the leading bit of `x`. -/
theorem Representable.multiple_or_below {y : Rat} (hy : Representable F y) :
    (∃ k : Int, y = (k : Rat) * pow2 (lastPlace F x)) ∨
      leastExponent F < lastPlace F x ∧ y < pow2 (floorLog2 x) := by
  obtain ⟨m, e, hm, he, rfl⟩ := hy
  rcases le_or_gt (lastPlace F x) e with hle | hlt
  · refine .inl ⟨m * 2 ^ (e - lastPlace F x).toNat, ?_⟩
    rw [pow2_eq]
    push_cast
    rw [mul_assoc, ← zpow_natCast, ← zpow_add₀ two_ne_zero]
    congr 2
    omega
  · have habove : leastExponent F < lastPlace F x := he.trans_lt hlt
    refine .inr ⟨habove, ?_⟩
    have hp := precision_pos F
    have hmax : (m : Rat) < 2 ^ precision F := by exact_mod_cast (le_abs_self m).trans_lt hm
    calc (m : Rat) * 2 ^ e
      _ < 2 ^ precision F * 2 ^ e := by gcongr
      _ ≤ 2 ^ precision F * 2 ^ (lastPlace F x - 1) := by gcongr <;> [exact one_le_two; omega]
      _ = pow2 (floorLog2 x) := by
        rw [pow2_floorLog2_eq habove, pow2_eq]
        push_cast
        rw [← zpow_natCast, ← zpow_natCast, ← zpow_add₀ two_ne_zero, ← zpow_add₀ two_ne_zero]
        congr 1
        omega

/-! The rounding of a positive number. -/

theorem fl_of_pos (F : FloatFormat) (hx : 0 < x) : fl F x = flPos F x := by
  simp [fl, hx.ne', not_lt.mpr hx.le]

theorem abs_sub_multiple (F : FloatFormat) (x : Rat) (k : Int) :
    |x - (k : Rat) * pow2 (lastPlace F x)| = |x / pow2 (lastPlace F x) - (k : Rat)| * pow2 (lastPlace F x) := by
  have hu := pow2_pos (lastPlace F x)
  rw [← abs_of_pos hu, ← abs_mul, abs_of_pos hu, sub_mul, div_mul_cancel₀ x hu.ne']

theorem flPos_representable (hx : 0 < x) : Representable F (flPos F x) := by
  have hu := pow2_pos (lastPlace F x)
  have hquot : x / pow2 (lastPlace F x) < ((2 ^ precision F : Int) : Rat) :=
    (div_lt_iff₀ hu).mpr (lt_two_pow_precision_mul hx)
  have hquot' : 0 < x / pow2 (lastPlace F x) := div_pos hx hu
  have hnear := abs_le.mp (nearestEven_error (x / pow2 (lastPlace F x)))
  have hhigh : nearestEven (x / pow2 (lastPlace F x)) < 2 ^ precision F + 1 := by
    have : (nearestEven (x / pow2 (lastPlace F x)) : Rat) < ((2 ^ precision F + 1 : Int) : Rat) := by
      push_cast at hquot ⊢
      linarith [hnear.1]
    exact_mod_cast this
  have hlow : -1 < nearestEven (x / pow2 (lastPlace F x)) := by
    have : ((-1 : Int) : Rat) < (nearestEven (x / pow2 (lastPlace F x)) : Rat) := by
      push_cast
      linarith [hnear.2]
    exact_mod_cast this
  rw [flPos]
  refine representable_mul_pow2 ?_ (leastExponent_le_lastPlace F x)
  rw [abs_of_nonneg (by omega)]
  omega

theorem flPos_nearest (hx : 0 < x) {y : Rat} (hy : Representable F y) : |x - flPos F x| ≤ |x - y| := by
  have hmultiple (k : Int) : |x - flPos F x| ≤ |x - (k : Rat) * pow2 (lastPlace F x)| := by
    rw [flPos, abs_sub_multiple, abs_sub_multiple]
    exact mul_le_mul_of_nonneg_right (nearestEven_le_abs_sub _ k) (pow2_pos _).le
  rcases hy.multiple_or_below (x := x) with ⟨k, rfl⟩ | ⟨habove, hbelow⟩
  · exact hmultiple k
  · obtain ⟨hlead, -⟩ := floorLog2_spec x hx
    have hstep := hmultiple (2 ^ (precision F - 1))
    rw [← pow2_floorLog2_eq habove, abs_of_nonneg (by linarith : 0 ≤ x - pow2 (floorLog2 x))] at hstep
    rw [abs_of_nonneg (by linarith : 0 ≤ x - y)]
    linarith

theorem flPos_even_of_tie (hx : 0 < x) {y : Rat} (hy : Representable F y) (hne : y ≠ flPos F x)
    (htie : |x - y| = |x - flPos F x|) : ∃ m : Int, flPos F x = 2 * (m : Rat) * pow2 (lastPlace F x) := by
  rcases hy.multiple_or_below (x := x) with ⟨k, rfl⟩ | ⟨habove, hbelow⟩
  · have hk : k ≠ nearestEven (x / pow2 (lastPlace F x)) := fun h => hne (by rw [flPos, h])
    rw [flPos, abs_sub_multiple, abs_sub_multiple] at htie
    obtain ⟨m, hm⟩ := nearestEven_even_of_tie hk (mul_right_cancel₀ (pow2_pos _).ne' htie)
    refine ⟨m, ?_⟩
    rw [flPos, hm]
    push_cast
    ring
  · obtain ⟨hlead, -⟩ := floorLog2_spec x hx
    have hstep : |x - flPos F x| ≤ |x - pow2 (floorLog2 x)| := by
      refine flPos_nearest hx ?_
      rw [pow2_floorLog2_eq habove]
      refine representable_mul_pow2 ?_ (leastExponent_le_lastPlace F x)
      rw [abs_of_nonneg (by positivity)]
      exact pow_le_pow_right₀ one_le_two (Nat.sub_le _ 1)
    rw [← htie, abs_of_nonneg (by linarith : 0 ≤ x - y),
      abs_of_nonneg (by linarith : 0 ≤ x - pow2 (floorLog2 x))] at hstep
    linarith

end

/-! The rounding of any number. -/

section
variable {F : FloatFormat} {x y : Rat}

theorem fl_representable (F : FloatFormat) (x : Rat) : Representable F (fl F x) := by
  rcases lt_trichotomy x 0 with hx | rfl | hx
  · rw [← neg_neg x, fl_neg, fl_of_pos F (neg_pos.mpr hx)]
    exact (flPos_representable (neg_pos.mpr hx)).neg
  · rw [fl_zero]
    exact representable_zero F
  · rw [fl_of_pos F hx]
    exact flPos_representable hx

theorem abs_neg_sub_neg (a b : Rat) : |-a - -b| = |a - b| := by
  rw [neg_sub_neg, abs_sub_comm]

theorem fl_nearest (hy : Representable F y) : |x - fl F x| ≤ |x - y| := by
  rcases lt_trichotomy x 0 with hx | rfl | hx
  · have hpos := flPos_nearest (neg_pos.mpr hx) hy.neg
    rwa [← fl_of_pos F (neg_pos.mpr hx), fl_neg, abs_neg_sub_neg, abs_neg_sub_neg] at hpos
  · rw [fl_zero, sub_zero, abs_zero]
    exact abs_nonneg _
  · rw [fl_of_pos F hx]
    exact flPos_nearest hx hy

theorem fl_even_of_tie (hy : Representable F y) (hne : y ≠ fl F x) (htie : |x - y| = |x - fl F x|) :
    ∃ m : Int, fl F x = 2 * (m : Rat) * pow2 (lastPlace F |x|) := by
  rcases lt_trichotomy x 0 with hx | rfl | hx
  · have hx' := neg_pos.mpr hx
    have hfl : flPos F (-x) = -fl F x := by rw [← fl_of_pos F hx', fl_neg]
    obtain ⟨m, hm⟩ := flPos_even_of_tie hx' hy.neg (by rwa [hfl, ne_eq, neg_inj])
      (by rwa [hfl, abs_neg_sub_neg, abs_neg_sub_neg])
    refine ⟨-m, ?_⟩
    rw [abs_of_neg hx, ← neg_neg (fl F x), ← hfl, hm]
    push_cast
    ring
  · rw [fl_zero, sub_zero, abs_zero, abs_eq_zero, zero_sub, neg_eq_zero] at htie
    exact absurd (htie.trans (fl_zero F).symm) hne
  · rw [abs_of_pos hx, fl_of_pos F hx] at *
    exact flPos_even_of_tie hx hy hne htie

theorem fl_of_representable (hx : Representable F x) : fl F x = x := by
  have h := fl_nearest (x := x) hx
  rw [sub_self, abs_zero] at h
  exact (sub_eq_zero.mp (abs_nonpos_iff.mp h)).symm

/-- Settles O42: the nearest multiple of the last place is the nearest value of the format, since any other value of
the format lies below the leading bit, itself a multiple. -/
theorem roundingIsToNearestTiesToEven : Obligations.RoundingIsToNearestTiesToEven := fun F x =>
  ⟨fl_representable F x, fun _ => fl_nearest, fun _ => fl_even_of_tie, fl_of_representable⟩

end

end Sys2Proof.Machine
end

section
/-! ### Consequences of rounding to nearest: order, exact values and errors -/

namespace Sys2Proof.Machine

section
variable {F : FloatFormat} {x y : Rat}

/-- A number is at or above the middle of two others if it is no further from the greater one. -/
theorem add_le_two_mul_of_abs_sub_le {a b : Rat} (hlt : b < a) (h : |x - a| ≤ |x - b|) : a + b ≤ 2 * x := by
  have hsq := sq_le_sq.mpr h
  nlinarith

theorem fl_mono (F : FloatFormat) (h : x ≤ y) : fl F x ≤ fl F y := by
  by_contra! hlt
  have hx := add_le_two_mul_of_abs_sub_le hlt (fl_nearest (x := x) (fl_representable F y))
  have hy := add_le_two_mul_of_abs_sub_le (x := -y) (neg_lt_neg hlt)
    (by rw [abs_neg_sub_neg, abs_neg_sub_neg]; exact fl_nearest (fl_representable F x))
  obtain rfl : x = y := by linarith
  exact lt_irrefl _ hlt

theorem fl_le (hy : Representable F y) (h : x ≤ y) : fl F x ≤ y :=
  (fl_mono F h).trans_eq (fl_of_representable hy)

theorem le_fl (hy : Representable F y) (h : y ≤ x) : y ≤ fl F x :=
  (fl_of_representable hy).symm.trans_le (fl_mono F h)

theorem abs_fl_le (hy : Representable F y) (h : |x| ≤ y) : |fl F x| ≤ y := by
  obtain ⟨hlow, hhigh⟩ := abs_le.mp h
  exact abs_le.mpr ⟨le_fl hy.neg hlow, fl_le hy hhigh⟩

/-- An integer of at most 24 bits over a power of two is a value of both formats. -/
theorem representable_div_two_pow (F : FloatFormat) {m : Int} {k : Nat} (hm : |m| < 2 ^ 24) (hk : k ≤ 149) :
    Representable F ((m : Rat) / 2 ^ k) := by
  refine ⟨m, -k, hm.trans_le ?_, ?_, by rw [zpow_neg, zpow_natCast, div_eq_mul_inv]⟩
  · exact pow_le_pow_right₀ one_le_two (by cases F <;> decide)
  · cases F <;> simp only [leastExponent] <;> omega

theorem representable_intCast (F : FloatFormat) {m : Int} (hm : |m| < 2 ^ 24) : Representable F (m : Rat) := by
  simpa using representable_div_two_pow F (k := 0) hm (Nat.zero_le _)

theorem representable_two_pow (F : FloatFormat) (k : Nat) : Representable F (2 ^ k) :=
  ⟨1, k, by cases F <;> decide, by cases F <;> simp only [leastExponent] <;> omega, by simp⟩

theorem toF_eq (F : FloatFormat) {n : Int} (hn : |n| < 2 ^ 24) : toF F n = n := by
  rw [toF, Rat.mkRat_eq_div, Nat.cast_one, div_one, fl_of_representable (representable_intCast F hn)]

theorem toFLit_litHalf (F : FloatFormat) : toFLit F litHalf = 1 / 2 := by
  rw [toFLit, litHalf_eq]
  exact fl_of_representable (by simpa using representable_div_two_pow F (m := 1) (k := 1) (by decide) (by decide))

theorem toFLit_lit10 (F : FloatFormat) : toFLit F lit10 = 10 := toF_eq F (n := 10) (by decide)

theorem toFLit_lit100 (F : FloatFormat) : toFLit F lit100 = 100 := toF_eq F (n := 100) (by decide)

theorem toFLit_litTref (F : FloatFormat) : toFLit F litTref = 30 := toF_eq F (n := 30) (by decide)

/-- Up to 2 ^ k the last place is at most 2 ^ (k - 23), in both formats. -/
theorem fl_error_of_abs_le (F : FloatFormat) {k : Int} (hk : -126 ≤ k) (hx : |x| ≤ 2 ^ k) :
    |fl F x - x| ≤ 2 ^ (k - 24) := by
  rcases eq_or_ne x 0 with rfl | hne
  · rw [fl_zero, sub_zero, abs_zero]
    positivity
  · obtain ⟨hlow, -⟩ := floorLog2_spec |x| (abs_pos.mpr hne)
    rw [pow2_eq] at hlow
    have hlog : floorLog2 |x| ≤ k := (zpow_le_zpow_iff_right₀ one_lt_two).mp (hlow.trans hx)
    have hplace : lastPlace F |x| ≤ k - 23 := by
      cases F <;> simp only [lastPlace, leastExponent, precision] <;> omega
    rw [abs_sub_comm]
    calc |x - fl F x|
      _ ≤ pow2 (lastPlace F |x|) / 2 := fl_error F x
      _ ≤ 2 ^ (k - 23) / 2 := by
        rw [pow2_eq]
        gcongr
        exact one_le_two
      _ = 2 ^ (k - 24) := by
        rw [show k - 23 = k - 24 + 1 by ring, zpow_add_one₀ two_ne_zero]
        ring

end

/-! ### The rounding helper (42_measurement_decode.md R134) -/

section
variable {F : FloatFormat} {y : Rat}

theorem roundHelper_of_nonneg (F : FloatFormat) (hy : 0 ≤ y) : roundHelper F y = (fl F (y + 1 / 2)).floor := by
  rw [roundHelper, if_pos hy, toFLit_litHalf]

theorem roundHelper_of_representable (hy : 0 ≤ y) (h : Representable F (y + 1 / 2)) :
    roundHelper F y = (y + 1 / 2).floor := by
  rw [roundHelper_of_nonneg F hy, fl_of_representable h]

theorem roundHelper_zero (F : FloatFormat) : roundHelper F 0 = 0 := by
  have hhalf : Representable F (0 + 1 / 2) := by
    simpa using representable_div_two_pow F (m := 1) (k := 1) (by decide) (by decide)
  rw [roundHelper_of_representable (le_refl 0) hhalf]
  decide +kernel

/-- The two branches are each other's mirror image. -/
theorem roundHelper_neg_of_pos (F : FloatFormat) (hy : 0 < y) : roundHelper F (-y) = -roundHelper F y := by
  rw [roundHelper_of_nonneg F hy.le, roundHelper, if_neg (by linarith), toFLit_litHalf, ← neg_add', fl_neg,
    Rat.ceil_eq_neg_floor_neg, neg_neg]

theorem roundHelper_neg (F : FloatFormat) (y : Rat) : roundHelper F (-y) = -roundHelper F y := by
  rcases lt_trichotomy y 0 with hy | rfl | hy
  · have h := roundHelper_neg_of_pos F (neg_pos.mpr hy)
    rw [neg_neg] at h
    rw [h, neg_neg]
  · rw [neg_zero, roundHelper_zero, neg_zero]
  · exact roundHelper_neg_of_pos F hy

theorem roundHelper_nonpos_of_neg (F : FloatFormat) (hy : y < 0) : roundHelper F y ≤ 0 := by
  rw [roundHelper, if_neg (by linarith), Rat.ceil_le_iff, toFLit_litHalf, Int.cast_zero]
  exact fl_le (representable_zero F) (by linarith)

/-! The helper stays at `n` up to 7/16 above it and reaches `n` from 1/2 below it: one rounding in the helper cannot
cross an integer that is a sixteenth away. -/

theorem roundHelper_le {n : Int} (hn : 0 ≤ n) (hn' : n < 2 ^ 20) (h : y ≤ n + 7 / 16) : roundHelper F y ≤ n := by
  rcases lt_or_ge y 0 with hy | hy
  · exact (roundHelper_nonpos_of_neg F hy).trans hn
  · rw [roundHelper_of_nonneg F hy, ← Int.lt_add_one_iff, Rat.floor_lt_iff]
    have hsixteenths : Representable F (((16 * n + 15 : Int) : Rat) / 2 ^ 4) :=
      representable_div_two_pow F (by rw [abs_of_nonneg (by omega)]; omega) (by decide)
    have hle := fl_le hsixteenths (x := y + 1 / 2) (by push_cast; linarith)
    push_cast at hle ⊢
    linarith

theorem le_roundHelper {n : Int} (hn : |n| < 2 ^ 24) (hy : 0 ≤ y) (h : n - 1 / 2 ≤ y) : n ≤ roundHelper F y := by
  rw [roundHelper_of_nonneg F hy, Rat.le_floor_iff]
  exact le_fl (representable_intCast F hn) (by linarith)

theorem le_roundHelper_of_nonpos {n : Int} (hn : -2 ^ 20 < n) (hn' : n ≤ 0) (h : n - 7 / 16 ≤ y) :
    n ≤ roundHelper F y := by
  have hneg : roundHelper F (-y) ≤ -n := roundHelper_le (by omega) (by omega) (by push_cast; linarith)
  rw [roundHelper_neg] at hneg
  omega

/-! A half and an integer are taken exactly: with 1/2 added each is still a value of the format. -/

theorem roundHelper_half (F : FloatFormat) {k : Nat} (hk : k < 2 ^ 20) :
    roundHelper F (mkRat (2 * k + 1) 2) = k + 1 := by
  have hsum : mkRat (2 * k + 1) 2 + 1 / 2 = ((k + 1 : Int) : Rat) := by
    rw [Rat.mkRat_eq_div]
    push_cast
    ring
  rw [roundHelper_of_representable, hsum, Rat.floor_intCast]
  · rw [Rat.mkRat_eq_div]
    positivity
  · rw [hsum]
    exact representable_intCast F (by rw [abs_of_nonneg (by omega)]; omega)

theorem roundHelper_natCast (F : FloatFormat) {k : Nat} (hk : k < 2 ^ 20) : roundHelper F (mkRat k 1) = k := by
  have hk' : mkRat k 1 = ((k : Int) : Rat) := by rw [Rat.mkRat_eq_div, Nat.cast_one, div_one]
  have hy : 0 ≤ ((k : Int) : Rat) := by positivity
  rw [hk']
  refine le_antisymm (roundHelper_le (by omega) (by omega) (by linarith)) (le_roundHelper ?_ hy (by linarith))
  rw [abs_of_nonneg (by omega)]
  omega

/-- Settles O33: a half, an integer, and their negatives by the helper's symmetry; the five examples are evaluated. -/
theorem roundingHelperRoundsHalvesAwayFromZero : Obligations.RoundingHelperRoundsHalvesAwayFromZero := by
  intro F
  refine ⟨fun k hk => ⟨roundHelper_half F hk, ?_, roundHelper_natCast F hk, ?_⟩, ?_⟩
  · rw [roundHelper_neg, roundHelper_half F hk]
  · rw [roundHelper_neg, roundHelper_natCast F hk]
  · cases F <;> decide +kernel

end

/-! ### The integer rounding is the helper's (42_measurement_decode.md R135) -/

theorem roundTenth_neg (x : Int) : roundTenth (-x) = -roundTenth x := by
  rw [roundTenth_eq, roundTenth_eq]
  split <;> split <;> omega

/-- The quotient by 10 lies between `q - 1/2` and `q + 4/10` for the rounded `q`, both sides short of the next half. -/
theorem roundHelper_tenth_of_nonneg (F : FloatFormat) {x : Int} (hx : 0 ≤ x) (hx' : x < 2 ^ 20) :
    roundHelper F (fl F (x / 10)) = roundTenth x := by
  rw [roundTenth_eq, if_pos hx]
  have hq : 10 * ((x + 5) / 10) ≤ x + 5 ∧ x + 5 ≤ 10 * ((x + 5) / 10) + 9 := by omega
  generalize (x + 5) / 10 = q at hq
  obtain ⟨hlow, hhigh⟩ := hq
  have hlow' : (10 * q : Rat) ≤ x + 5 := by exact_mod_cast hlow
  have hhigh' : (x : Rat) + 5 ≤ 10 * q + 9 := by exact_mod_cast hhigh
  have hx0 : (0 : Rat) ≤ x / 10 := by positivity
  have hhalf : Representable F (((2 * q - 1 : Int) : Rat) / 2 ^ 1) :=
    representable_div_two_pow F (by rw [abs_lt]; omega) (by decide)
  have hsixteenths : Representable F (((16 * q + 7 : Int) : Rat) / 2 ^ 4) :=
    representable_div_two_pow F (by rw [abs_lt]; omega) (by decide)
  have hge := le_fl hhalf (x := x / 10) (by push_cast; linarith)
  have hle := fl_le hsixteenths (x := x / 10) (by push_cast; linarith)
  push_cast at hge hle
  refine le_antisymm (roundHelper_le (by omega) (by omega) (by linarith)) (le_roundHelper ?_ ?_ (by linarith))
  · rw [abs_lt]; omega
  · exact le_fl (representable_zero F) hx0

theorem roundHelper_tenth (F : FloatFormat) {x : Int} (hx : |x| < 2 ^ 20) :
    roundHelper F (fl F (toF F x / toFLit F lit10)) = roundTenth x := by
  rw [toF_eq F (by omega), toFLit_lit10]
  rw [abs_lt] at hx
  rcases le_total 0 x with hnonneg | hnonpos
  · exact roundHelper_tenth_of_nonneg F hnonneg (by omega)
  · have h := roundHelper_tenth_of_nonneg F (x := -x) (by omega) (by omega)
    rw [Int.cast_neg, neg_div, fl_neg, roundHelper_neg, roundTenth_neg] at h
    exact neg_inj.mp h

/-- Settles O32: the decoded values are far below 2 ^ 20. -/
theorem integerRoundingEqualsTheRoundingHelper : Obligations.IntegerRoundingEqualsTheRoundingHelper := by
  intro F c hc
  obtain ⟨hlowT, hhighT⟩ := decodeT_bounds hc
  obtain ⟨hlowH, hhighH⟩ := decodeH_bounds hc
  exact ⟨roundHelper_tenth F (abs_lt.mpr (by omega)), roundHelper_tenth F (abs_lt.mpr (by omega))⟩

end Sys2Proof.Machine
end

section
/-! ### COMP_HUM's operations stay far below overflow (43_humidity_compensation.md R164) -/

namespace Sys2Proof.Machine

section
variable {F : FloatFormat} {x y : Rat} {j k : Nat}

/-! One rounded operation on numbers below powers of two. -/

theorem abs_fl_le_two_pow (F : FloatFormat) (h : |x| ≤ 2 ^ k) : |fl F x| ≤ 2 ^ k :=
  abs_fl_le (representable_two_pow F k) h

theorem abs_fl_add_le (F : FloatFormat) (hx : |x| ≤ 2 ^ k) (hy : |y| ≤ 2 ^ k) : |fl F (x + y)| ≤ 2 ^ (k + 1) := by
  refine abs_fl_le_two_pow F ((abs_add_le x y).trans ?_)
  rw [pow_succ]
  linarith

theorem abs_fl_sub_le (F : FloatFormat) (hx : |x| ≤ 2 ^ k) (hy : |y| ≤ 2 ^ k) : |fl F (x - y)| ≤ 2 ^ (k + 1) := by
  rw [sub_eq_add_neg]
  exact abs_fl_add_le F hx (by rwa [abs_neg])

theorem abs_fl_mul_le (F : FloatFormat) (hx : |x| ≤ 2 ^ j) (hy : |y| ≤ 2 ^ k) : |fl F (x * y)| ≤ 2 ^ (j + k) := by
  refine abs_fl_le_two_pow F ?_
  rw [abs_mul, pow_add]
  exact mul_le_mul hx hy (abs_nonneg y) (by positivity)

theorem abs_fl_div_le (F : FloatFormat) (hx : |x| ≤ 2 ^ k) (hy : 1 ≤ y) : |fl F (x / y)| ≤ 2 ^ k := by
  refine abs_fl_le_two_pow F ?_
  rw [abs_div, abs_of_pos (zero_lt_one.trans_le hy)]
  exact (div_le_self (abs_nonneg x) hy).trans hx

theorem le_two_pow_of_le (h : |x| ≤ 2 ^ j) (hjk : j ≤ k) : |x| ≤ 2 ^ k :=
  h.trans (pow_le_pow_right₀ one_le_two hjk)

theorem lt_two_pow_of_le (h : |x| ≤ 2 ^ j) (hjk : j < k) : |x| < 2 ^ k :=
  h.trans_lt (pow_lt_pow_right₀ one_lt_two hjk)

end

/-- A stored word is a signed 32-bit integer. -/
theorem abs_fl_toInt_le (F : FloatFormat) (v : Value) : |fl F (mkRat v.toInt 1)| ≤ 2 ^ 31 := by
  refine abs_fl_le_two_pow F ?_
  rw [Rat.mkRat_eq_div, Nat.cast_one, div_one]
  have hv : |v.toInt| ≤ 2 ^ 31 := abs_le.mpr ⟨BitVec.le_toInt v, (BitVec.toInt_lt (x := v)).le⟩
  exact_mod_cast hv

/-- Settles O41: each bound follows from those of the operands, from 2 ^ 31 for a stored word to 2 ^ 107. -/
theorem compHumNeverOverflows : Obligations.CompHumNeverOverflows := by
  intro F t h c fh v vv quad slope sum p lin ft deg d lq k dk comp
  have hconst (n : Int) (m : Nat) (j : Nat) (hnm : |mkRat n m| ≤ 2 ^ j) : |c n m| ≤ 2 ^ j := abs_fl_le_two_pow F hnm
  have h100 : c 100 1 = 100 := toFLit_lit100 F
  have h10 : c 10 1 = 10 := toFLit_lit10 F
  have hfh : |fh| ≤ 2 ^ 31 := abs_fl_toInt_le F h
  have hv : |v| ≤ 2 ^ 31 := abs_fl_div_le F hfh (by rw [h100]; norm_num)
  have hvv : |vv| ≤ 2 ^ 62 := abs_fl_mul_le F hv hv
  have hquad : |quad| ≤ 2 ^ 62 := abs_fl_mul_le F (hconst (-393) 100000 0 (by norm_num)) hvv
  have hslope : |slope| ≤ 2 ^ 31 := abs_fl_mul_le F (hconst 4008 10000 0 (by norm_num)) hv
  have hsum : |sum| ≤ 2 ^ 63 := abs_fl_add_le F hquad (le_two_pow_of_le hslope (by decide))
  have hp : |p| ≤ 2 ^ 64 :=
    abs_fl_add_le F hsum (le_two_pow_of_le (hconst (-47844) 10000 3 (by norm_num)) (by decide))
  have hlin : |lin| ≤ 2 ^ 65 := abs_fl_sub_le F (le_two_pow_of_le hv (by decide)) hp
  have hft : |ft| ≤ 2 ^ 31 := abs_fl_toInt_le F t
  have hdeg : |deg| ≤ 2 ^ 31 := abs_fl_div_le F hft (by rw [h100]; norm_num)
  have hd : |d| ≤ 2 ^ 32 := abs_fl_sub_le F hdeg (le_two_pow_of_le (hconst 30 1 5 (by norm_num)) (by decide))
  have hlq : |lq| ≤ 2 ^ 65 := abs_fl_mul_le F hlin (hconst 237 100000 0 (by norm_num))
  have hk : |k| ≤ 2 ^ 66 :=
    abs_fl_add_le F hlq (le_two_pow_of_le (hconst 1973 10000 0 (by norm_num)) (by decide))
  have hdk : |dk| ≤ 2 ^ 98 := abs_fl_mul_le F hd hk
  have hcomp : |comp| ≤ 2 ^ 99 := abs_fl_add_le F (le_two_pow_of_le hlin (by decide)) hdk
  have below {x : Rat} {j : Nat} (hx : |x| ≤ 2 ^ j) (hj : j < 127) : |x| < 2 ^ 127 := lt_two_pow_of_le hx hj
  refine ⟨?operations, ?output⟩
  case operations =>
    simp only [List.forall_mem_cons, List.not_mem_nil, false_imp_iff, implies_true, and_true]
    exact ⟨below hfh (by decide), below hv (by decide), below hvv (by decide), below hquad (by decide),
      below hslope (by decide), below hsum (by decide), below hp (by decide), below hlin (by decide),
      below hft (by decide), below hdeg (by decide), below hd (by decide), below hlq (by decide),
      below hk (by decide), below hdk (by decide), below hcomp (by decide)⟩
  case output =>
    intro out hout sc y
    have hout' : |out| ≤ 2 ^ 99 := by
      rcases List.mem_pair.mp hout with rfl | rfl
      · exact le_two_pow_of_le hlin (by decide)
      · exact hcomp
    have hsc : |sc| ≤ 2 ^ 106 := abs_fl_mul_le F hout' (hconst 100 1 7 (by norm_num))
    have hy : |y| ≤ 2 ^ 106 := abs_fl_div_le F hsc (by rw [h10]; norm_num)
    have hhalf : |c 1 2| ≤ 2 ^ 106 := le_two_pow_of_le (hconst 1 2 0 (by norm_num)) (by decide)
    exact ⟨below hsc (by decide), below hy (by decide), below (abs_fl_add_le F hy hhalf) (by decide),
      below (abs_fl_sub_le F hy hhalf) (by decide)⟩

end Sys2Proof.Machine
end

section
/-! ### The error of a rounded chain of operations -/

namespace Sys2Proof.Machine

/-- The computed `x` is within `e` of the exact `X`. -/
def Near (x X e : Rat) : Prop := |x - X| ≤ e

section
variable {x X e y Y f : Rat}

theorem Near.refl (X : Rat) : Near X X 0 := by rw [Near, sub_self, abs_zero]

theorem Near.bounds (h : Near x X e) : X - e ≤ x ∧ x ≤ X + e := by
  obtain ⟨hlow, hhigh⟩ := abs_le.mp h
  constructor <;> linarith

theorem Near.add (hx : Near x X e) (hy : Near y Y f) : Near (x + y) (X + Y) (e + f) := by
  rw [Near, add_sub_add_comm]
  exact (abs_add_le _ _).trans (add_le_add hx hy)

theorem Near.sub (hx : Near x X e) (hy : Near y Y f) : Near (x - y) (X - Y) (e + f) := by
  rw [Near, sub_sub_sub_comm]
  exact (abs_sub _ _).trans (add_le_add hx hy)

theorem Near.div_const {c : Rat} (hx : Near x X e) (hc : 0 < c) : Near (x / c) (X / c) (e / c) := by
  rw [Near, ← sub_div, abs_div, abs_of_pos hc]
  exact div_le_div_of_nonneg_right hx hc.le

theorem Near.weaken {e' : Rat} (hx : Near x X e) (he : e ≤ e') : Near x X e' := hx.trans he

theorem Near.mul {A B : Rat} (hx : Near x X e) (hy : Near y Y f) (hX : |X| ≤ A) (hY : |Y| ≤ B) :
    Near (x * y) (X * Y) (A * f + e * B + e * f) := by
  have hsplit : x * y - X * Y = X * (y - Y) + (x - X) * Y + (x - X) * (y - Y) := by ring
  have hprod {a b A B : Rat} (ha : |a| ≤ A) (hb : |b| ≤ B) : |a * b| ≤ A * B :=
    (abs_mul a b).trans_le (mul_le_mul ha hb (abs_nonneg b) ((abs_nonneg a).trans ha))
  rw [Near, hsplit]
  exact (abs_add_three _ _ _).trans (add_le_add_three (hprod hX hy) (hprod hx hY) (hprod hx hy))

/-- One more rounding, of a number below 2 ^ k. -/
theorem Near.fl {A : Rat} (hx : Near x X e) (F : FloatFormat) (k : Int) (hX : |X| ≤ A) (hk : -126 ≤ k)
    (hA : A + e ≤ 2 ^ k) {e' : Rat} (he' : e + 2 ^ (k - 24) ≤ e') : Near (fl F x) X e' := by
  have hbound : |x| ≤ 2 ^ k := by
    have := abs_sub_abs_le_abs_sub x X
    rw [Near] at hx
    linarith
  have herror := fl_error_of_abs_le F hk hbound
  exact (abs_sub_le (Machine.fl F x) x X).trans ((add_le_add herror hx).trans (by linarith))

end

/-! ### The exact stages of COMP_HUM and their ranges (43_humidity_compensation.md R161, R162, R166) -/

/-- Stage 1 on exact numbers. -/
def exactLinear (V : Rat) : Rat := V - (-393 / 100000 * (V * V) + 4008 / 10000 * V - 47844 / 10000)

/-- Stage 2 on exact numbers. -/
def exactCompensated (L T : Rat) : Rat := L + (T - 30) * (L * (237 / 100000) + 1973 / 10000)

/-- Stage 1 increases over the range of a measured humidity: its difference to either end is a product of two factors
that do not change sign there. -/
theorem exactLinear_bounds {V : Rat} (h : -24 ≤ V) (h' : V ≤ 23193 / 100) :
    -733272 / 100000 ≤ exactLinear V ∧ exactLinear V ≤ 3551575489 / 10000000 := by
  have hlow : 0 ≤ (V + 24) * (393 / 100000 * (V - 24) + 5992 / 10000) := mul_nonneg (by linarith) (by linarith)
  have hhigh : 0 ≤ (23193 / 100 - V) * (393 / 100000 * (V + 23193 / 100) + 5992 / 10000) :=
    mul_nonneg (by linarith) (by linarith)
  rw [exactLinear]
  constructor <;> linarith

/-- Stage 2 increases with the temperature, since its slope is positive, and at both ends with the humidity. -/
theorem exactCompensated_bounds {L T : Rat} (hL : -733272 / 100000 ≤ L) (hL' : L ≤ 3551575489 / 10000000)
    (hT : -50 ≤ T) (hT' : T ≤ 46196 / 100) :
    -217265 / 10000 ≤ exactCompensated L T ∧ exactCompensated L T ≤ 80397415 / 100000 := by
  have hslope : 0 ≤ L * (237 / 100000) + 1973 / 10000 := by linarith
  have hlow : 0 ≤ (T + 50) * (L * (237 / 100000) + 1973 / 10000) := mul_nonneg (by linarith) hslope
  have hhigh : 0 ≤ (46196 / 100 - T) * (L * (237 / 100000) + 1973 / 10000) := mul_nonneg (by linarith) hslope
  rw [exactCompensated]
  constructor <;> linarith

/-! ### The computed stages are near the exact ones, in both formats -/

/-- A reading ×100 as a number: exact before its one division. -/
theorem hundredth_near (F : FloatFormat) {n : Int} {A : Rat} (k : Int) (hn : |n| < 2 ^ 24)
    (hA : |(n : Rat) / 100| ≤ A) (hk : -126 ≤ k) (hAk : A ≤ 2 ^ k) :
    Near (fl F (toF F n / toFLit F lit100)) (n / 100) (2 ^ (k - 24)) := by
  rw [toF_eq F hn, toFLit_lit100]
  exact (Near.refl _).fl F k hA hk (by linarith) (by linarith)

/-- A literal below 2 ^ k, rounded once. -/
theorem toFLit_near (F : FloatFormat) {lit X : Rat} (k : Int) (hlit : lit = X) (hX : |X| ≤ 2 ^ k) (hk : -126 ≤ k) :
    Near (toFLit F lit) X (2 ^ (k - 24)) := by
  subst hlit
  exact (Near.refl _).fl F k hX hk (by linarith) (by linarith)

/-! The calibration literals as fractions. -/

theorem litA0_eq : litA0 = -47844 / 10000 := by norm_num [litA0]

theorem litA1_eq : litA1 = 4008 / 10000 := by norm_num [litA1]

theorem litA2_eq : litA2 = -393 / 100000 := by norm_num [litA2]

theorem litQ0_eq : litQ0 = 1973 / 10000 := by norm_num [litQ0]

theorem litQ1_eq : litQ1 = 237 / 100000 := by norm_num [litQ1]

theorem linearize_near (F : FloatFormat) {n : Int} (h : -2400 ≤ n) (h' : n ≤ 23193) :
    Near (linearize F n) (exactLinear (n / 100)) (3 / 10000) := by
  have hlow : (-24 : Rat) ≤ n / 100 := by
    have : (-2400 : Rat) ≤ n := by exact_mod_cast h
    linarith
  have hhigh : (n : Rat) / 100 ≤ 23193 / 100 := by
    have : (n : Rat) ≤ 23193 := by exact_mod_cast h'
    linarith
  have hV : |(n : Rat) / 100| ≤ 232 := abs_le.mpr ⟨by linarith, by linarith⟩
  have hv := hundredth_near F 8 (by rw [abs_lt]; omega) hV (by norm_num) (by norm_num)
  rw [linearize, exactLinear]
  generalize fl F (toF F n / toFLit F lit100) = v at *
  generalize (n : Rat) / 100 = V at *
  have hsquare : 0 ≤ V * V := mul_self_nonneg V
  have hsquare' : V * V ≤ 53824 := by nlinarith
  have ha0 := toFLit_near F 3 litA0_eq (by norm_num) (by norm_num)
  have ha1 := toFLit_near F (-1) litA1_eq (by norm_num) (by norm_num)
  have ha2 := toFLit_near F (-7) litA2_eq (by norm_num) (by norm_num)
  have hvv := (hv.mul hv hV hV).fl F 16 (A := 53824) (e' := 12 / 1000)
    (abs_le.mpr ⟨by linarith, by linarith⟩) (by norm_num) (by norm_num) (by norm_num)
  have hquad := (ha2.mul hvv (B := 53824) (le_refl _) (abs_le.mpr ⟨by linarith, by linarith⟩)).fl F 8 (A := 212)
    (e' := 1 / 10000) (abs_le.mpr ⟨by linarith, by linarith⟩) (by norm_num) (by norm_num) (by norm_num)
  have hslope := (ha1.mul hv (le_refl _) hV).fl F 7 (A := 93) (e' := 3 / 100000)
    (abs_le.mpr ⟨by linarith, by linarith⟩) (by norm_num) (by norm_num) (by norm_num)
  have hsum := (hquad.add hslope).fl F 9 (A := 305) (e' := 17 / 100000)
    (abs_le.mpr ⟨by linarith, by linarith⟩) (by norm_num) (by norm_num) (by norm_num)
  have hp := (hsum.add ha0).fl F 9 (A := 310) (e' := 21 / 100000)
    (abs_le.mpr ⟨by linarith, by linarith⟩) (by norm_num) (by norm_num) (by norm_num)
  have hlin := (hv.sub hp).fl F 10 (A := 542) (e' := 3 / 10000)
    (abs_le.mpr ⟨by linarith, by linarith⟩) (by norm_num) (by norm_num) (by norm_num)
  convert hlin using 2
  ring

theorem compensated_near (F : FloatFormat) {l L : Rat} (hl : Near l L (3 / 10000)) (hL : |L| ≤ 356) {n : Int}
    (h : -5000 ≤ n) (h' : n ≤ 46196) :
    Near (temperatureCompensate F l n) (exactCompensated L (n / 100)) (11 / 10000) := by
  have hlow : (-50 : Rat) ≤ n / 100 := by
    have : (-5000 : Rat) ≤ n := by exact_mod_cast h
    linarith
  have hhigh : (n : Rat) / 100 ≤ 46196 / 100 := by
    have : (n : Rat) ≤ 46196 := by exact_mod_cast h'
    linarith
  have hdeg := hundredth_near F (n := n) 9 (A := 462) (by rw [abs_lt]; omega) (abs_le.mpr ⟨by linarith, by linarith⟩)
    (by norm_num) (by norm_num)
  rw [temperatureCompensate, exactCompensated, toFLit_litTref]
  generalize fl F (toF F n / toFLit F lit100) = deg at *
  generalize (n : Rat) / 100 = T at *
  obtain ⟨hLlow, hLhigh⟩ := abs_le.mp hL
  have hD : |T - 30| ≤ 432 := abs_le.mpr ⟨by linarith, by linarith⟩
  have hq0 := toFLit_near F (-2) litQ0_eq (by norm_num) (by norm_num)
  have hq1 := toFLit_near F (-8) litQ1_eq (by norm_num) (by norm_num)
  have hK : |L * (237 / 100000) + 1973 / 10000| ≤ 11 / 10 := abs_le.mpr ⟨by linarith, by linarith⟩
  have hDK : |(T - 30) * (L * (237 / 100000) + 1973 / 10000)| ≤ 476 :=
    (abs_mul _ _).trans_le ((mul_le_mul hD hK (abs_nonneg _) (by norm_num)).trans (by norm_num))
  have hd := (hdeg.sub (Near.refl 30)).fl F 9 (e' := 7 / 100000) hD (by norm_num) (by norm_num) (by norm_num)
  have hlq := (hl.mul hq1 hL (le_refl _)).fl F 0 (A := 9 / 10) (e' := 1 / 1000000)
    (abs_le.mpr ⟨by linarith, by linarith⟩) (by norm_num) (by norm_num) (by norm_num)
  have hk := (hlq.add hq0).fl F 1 (e' := 13 / 10000000) hK (by norm_num) (by norm_num) (by norm_num)
  have hdk := (hd.mul hk hD hK).fl F 9 (A := 476) (e' := 7 / 10000)
    hDK (by norm_num) (by norm_num) (by norm_num)
  exact (hl.add hdk).fl F 10 (A := 832) (e' := 11 / 10000) ((abs_add_le _ _).trans (by linarith))
    (by norm_num) (by norm_num) (by norm_num)

/-! ### The output conversion (43_humidity_compensation.md R163) -/

theorem truncF_le {y : Rat} {b : Int} (hb : 0 ≤ b) (h : y < b + 1) : truncF y ≤ b := by
  rw [truncF]
  split
  · rw [Rat.ceil_le_iff]
    have : (0 : Rat) ≤ b := by exact_mod_cast hb
    linarith
  · rw [← Int.lt_add_one_iff, Rat.floor_lt_iff]
    exact_mod_cast h

theorem le_truncF {y : Rat} {a : Int} (ha : a ≤ 0) (h : a - 1 < y) : a ≤ truncF y := by
  rw [truncF]
  split
  · rw [← Int.sub_one_lt_iff, Rat.lt_ceil_iff]
    exact_mod_cast h
  · rw [Rat.le_floor_iff]
    have : (a : Rat) ≤ 0 := by exact_mod_cast ha
    linarith

section
variable {F : FloatFormat} {out X : Rat} {a b : Int}

/-- The rescaled output, and its tenth: the last two roundings before the integer. -/
theorem rescaled_near (F : FloatFormat) (hout : Near out X (11 / 10000)) (hX : |X| ≤ 804) :
    Near (fl F (out * toFLit F lit100)) (X * 100) (12 / 100) ∧
      Near (fl F (fl F (out * toFLit F lit100) / toFLit F lit10)) (X * 10) (13 / 1000) := by
  obtain ⟨hlow, hhigh⟩ := abs_le.mp hX
  rw [toFLit_lit100, toFLit_lit10]
  have hsc := (hout.mul (Near.refl 100) hX (le_refl _)).fl F 17 (A := 80400) (e' := 12 / 100)
    (abs_le.mpr ⟨by linarith, by linarith⟩) (by norm_num) (by norm_num) (by norm_num)
  have hy := (hsc.div_const (c := 10) (by norm_num)).fl F 13 (A := 8040) (e' := 13 / 1000)
    (abs_le.mpr ⟨by linarith, by linarith⟩) (by norm_num) (by norm_num) (by norm_num)
  refine ⟨hsc, ?_⟩
  rwa [show X * 10 = X * 100 / 10 by ring]

theorem scaleOutput_true_bounds (hout : Near out X (11 / 10000)) (hX : |X| ≤ 804) (ha : a ≤ 0) (hb : 0 ≤ b)
    (hlow : a - 87 / 100 ≤ X * 100) (hhigh : X * 100 ≤ b + 87 / 100) :
    a ≤ scaleOutput F true out ∧ scaleOutput F true out ≤ b := by
  obtain ⟨hsc, hsc'⟩ := (rescaled_near F hout hX).1.bounds
  exact ⟨le_truncF ha (by linarith), truncF_le hb (by linarith)⟩

theorem scaleOutput_false_bounds (hout : Near out X (11 / 10000)) (hX : |X| ≤ 804) (ha : -2 ^ 20 < a) (ha' : a ≤ 0)
    (hb : 0 ≤ b) (hb' : b < 2 ^ 20) (hlow : a - 42 / 100 ≤ X * 10) (hhigh : X * 10 ≤ b + 42 / 100) :
    a ≤ scaleOutput F false out ∧ scaleOutput F false out ≤ b := by
  obtain ⟨hy, hy'⟩ := (rescaled_near F hout hX).2.bounds
  exact ⟨le_roundHelper_of_nonpos ha ha' (by linarith), roundHelper_le hb hb' (by linarith)⟩

end

/-! ### The ranges of COMP_HUM (43_humidity_compensation.md R166) -/

theorem LegalLastT.bounds {t : Value} (h : LegalLastT t) (ht : t ≠ sentT) : -5000 ≤ t.toInt ∧ t.toInt ≤ 46196 := by
  obtain ⟨n, hn, hvalue⟩ := h.resolve_left ht
  rw [hvalue, Int.tdiv_eq_ediv_of_nonneg (by omega)]
  omega

theorem LegalLastH.bounds {h : Value} (hlegal : LegalLastH h) (hh : h ≠ sentH) :
    -2400 ≤ h.toInt ∧ h.toInt ≤ 23193 := by
  obtain ⟨n, hn, hvalue⟩ := hlegal.resolve_left hh
  rw [hvalue, Int.tdiv_eq_ediv_of_nonneg (by omega)]
  omega

/-- The linearized humidity of a measured reading, exact and computed. -/
theorem exists_linearized (F : FloatFormat) {h : Value} (hlegal : LegalLastH h) (hh : h ≠ sentH) :
    ∃ L, Near (linearize F h.toInt) L (3 / 10000) ∧ -733272 / 100000 ≤ L ∧ L ≤ 3551575489 / 10000000 := by
  obtain ⟨hlow, hhigh⟩ := hlegal.bounds hh
  refine ⟨_, linearize_near F hlow hhigh, exactLinear_bounds ?_ ?_⟩
  · have : (-2400 : Rat) ≤ h.toInt := by exact_mod_cast hlow
    linarith
  · have : (h.toInt : Rat) ≤ 23193 := by exact_mod_cast hhigh
    linarith

theorem compResult_of_no_temperature (F : FloatFormat) (hp : Bool) (h : Value) :
    compResult F hp sentT h = scaleOutput F hp (linearize F h.toInt) := by
  rw [compResult, calibrated, if_pos rfl]

theorem compResult_of_temperature (F : FloatFormat) (hp : Bool) {t : Value} (ht : t ≠ sentT) (h : Value) :
    compResult F hp t h = scaleOutput F hp (temperatureCompensate F (linearize F h.toInt) t.toInt) := by
  rw [compResult, calibrated, if_neg ht]

/-- Settles O39: the exact stage 1 leaves more room to each bound than the roundings use. -/
theorem compHumRangeWithoutATemperature : Obligations.CompHumRangeWithoutATemperature := by
  intro F h hlegal hh
  obtain ⟨L, hnear, hlow, hhigh⟩ := exists_linearized F hlegal hh
  have hL : |L| ≤ 804 := abs_le.mpr ⟨by linarith, by linarith⟩
  have hnear' := hnear.weaken (e' := 11 / 10000) (by norm_num)
  obtain ⟨htrunc, htrunc'⟩ := scaleOutput_true_bounds (F := F) (a := -733) (b := 35515) hnear' hL (by decide)
    (by decide) (by push_cast; linarith) (by push_cast; linarith)
  obtain ⟨hround, hround'⟩ := scaleOutput_false_bounds (F := F) (a := -73) (b := 3552) hnear' hL (by decide)
    (by decide) (by decide) (by decide) (by push_cast; linarith) (by push_cast; linarith)
  rw [← compResult_of_no_temperature] at htrunc htrunc' hround hround'
  exact ⟨htrunc, htrunc', hround, hround'⟩

/-- Settles O38: the exact two stages leave more room to each bound than the roundings use. -/
theorem compHumRangeWithATemperature : Obligations.CompHumRangeWithATemperature := by
  intro F t h hlegalT ht hlegalH hh
  obtain ⟨hlowT, hhighT⟩ := hlegalT.bounds ht
  obtain ⟨L, hnear, hlowL, hhighL⟩ := exists_linearized F hlegalH hh
  have hcomp := compensated_near F hnear (abs_le.mpr ⟨by linarith, by linarith⟩) hlowT hhighT
  have hlowT' : (-5000 : Rat) ≤ t.toInt := by exact_mod_cast hlowT
  have hhighT' : (t.toInt : Rat) ≤ 46196 := by exact_mod_cast hhighT
  obtain ⟨hlow, hhigh⟩ := exactCompensated_bounds hlowL hhighL (T := t.toInt / 100) (by linarith) (by linarith)
  generalize exactCompensated L (t.toInt / 100) = C at *
  have hC : |C| ≤ 804 := abs_le.mpr ⟨by linarith, by linarith⟩
  obtain ⟨htrunc, htrunc'⟩ := scaleOutput_true_bounds (F := F) (a := -2172) (b := 80397) hcomp hC (by decide)
    (by decide) (by push_cast; linarith) (by push_cast; linarith)
  obtain ⟨hround, hround'⟩ := scaleOutput_false_bounds (F := F) (a := -217) (b := 8040) hcomp hC (by decide)
    (by decide) (by decide) (by decide) (by push_cast; linarith) (by push_cast; linarith)
  rw [← compResult_of_temperature F _ ht] at htrunc htrunc' hround hround'
  exact ⟨htrunc, htrunc', hround, hround'⟩

/-! ### Fixed values (43_humidity_compensation.md R160, R166) -/

/-- Settles O35: the eighteen encodings are evaluated, format by format. -/
theorem constantsHaveTheListedEncodings : Obligations.ConstantsHaveTheListedEncodings := by
  constructor <;> decide +kernel

/-- Settles O40: the results of the four pairs of stored readings are evaluated. -/
theorem compHumCollidesWithTheSentinel : Obligations.CompHumCollidesWithTheSentinel := by
  refine ⟨fun F => ?_, ?_, ?_⟩
  · cases F <;> constructor <;> decide +kernel
  · decide +kernel
  · decide +kernel

end Sys2Proof.Machine
end

section
/-! ### The assembler reads the disassembler's text (30_encoding.md R67 to R69) -/

namespace Sys2Proof.Machine

/-! Digits. -/

theorem readDigits_append (base acc : Nat) (xs ys : List Char) :
    readDigits base acc (xs ++ ys) = (readDigits base acc xs).bind fun n => readDigits base n ys := by
  induction xs generalizing acc with
  | nil => rfl
  | cons c xs ih =>
    simp only [List.cons_append, readDigits]
    split
    · split
      · exact ih _
      · rfl
    · rfl

theorem readDigits_hexDigit {n : Nat} (acc : Nat) (hn : n < 16) :
    readDigits 16 acc [hexDigit n] = some (acc * 16 + n) := by
  simp [readDigits, digitValue_hexDigit n hn, hn]

/-- The spelled digits are read back as the number's last digits. -/
theorem readDigits_hexDigits (k n : Nat) : readDigits 16 0 (hexDigits k n) = some (n % 16 ^ k) := by
  induction k generalizing n with
  | zero => simp [hexDigits, readDigits, Nat.mod_one]
  | succ k ih =>
    rw [hexDigits, readDigits_append, ih, Option.bind_some, readDigits_hexDigit _ (Nat.mod_lt n (by decide)), pow_succ',
      Nat.mod_mul, Nat.mul_comm, Nat.add_comm]

theorem readImm_hexSpelling (cfg : Byte) : readImm [hexSpelling 2 cfg.toNat] = some cfg := by
  have hread : readNumber (hexSpelling 2 cfg.toNat) = some (cfg.toNat % 16 ^ 2) := readDigits_hexDigits 2 cfg.toNat
  have hlt : cfg.toNat < 16 ^ 2 := cfg.isLt
  rw [Nat.mod_eq_of_lt hlt] at hread
  simp [readImm, hread, cfg.isLt]

theorem readWord_hexSpelling (w : CmdWord) : readWord [hexSpelling 4 w.toNat] = some w := by
  have hread : readWord [hexSpelling 4 w.toNat] = (readDigits 16 0 (hexDigits 4 w.toNat)).map (BitVec.ofNat 16) := rfl
  have hlt : w.toNat < 16 ^ 4 := w.isLt
  rw [hread, readDigits_hexDigits, Nat.mod_eq_of_lt hlt, Option.map_some, BitVec.ofNat_toNat, BitVec.setWidth_eq]

/-! Characters that neither end a name or an operand nor begin a comment. -/

/-- No blank, no comma, no semicolon. -/
def isPlain (c : Char) : Bool := !isBlank c && c != ',' && c != ';'

theorem isBlank_of_isPlain {c : Char} (h : isPlain c = true) : isBlank c = false := by
  simp_all [isPlain]

theorem ne_comma_of_isPlain {c : Char} (h : isPlain c = true) : c ≠ ',' := by
  simp_all [isPlain]

theorem ne_semicolon_of_isPlain {c : Char} (h : isPlain c = true) : c ≠ ';' := by
  simp_all [isPlain]

theorem isPlain_hexDigit {n : Nat} (hn : n < 16) : isPlain (hexDigit n) = true := by
  revert n
  decide +kernel

theorem isPlain_hexDigits (k n : Nat) : ∀ c ∈ hexDigits k n, isPlain c = true := by
  induction k generalizing n with
  | zero => exact List.forall_mem_nil _
  | succ k ih =>
    exact List.forall_mem_append.mpr
      ⟨ih (n / 16), List.forall_mem_singleton.mpr (isPlain_hexDigit (Nat.mod_lt n (by decide)))⟩

theorem isPlain_hexSpelling (k n : Nat) : ∀ c ∈ hexSpelling k n, isPlain c = true :=
  List.forall_mem_append.mpr ⟨by simp [isPlain, isBlank], isPlain_hexDigits k n⟩

/-! A line of a plain name, alone or before a blank and its operands. -/

theorem splitCommas_of_plain {cs : List Char} (h : ∀ c ∈ cs, c ≠ ',') : splitCommas cs = [cs] := by
  induction cs with
  | nil => rfl
  | cons c cs ih =>
    obtain ⟨hc, hcs⟩ := List.forall_mem_cons.mp h
    simp [splitCommas, ih hcs, hc]

theorem dropBlanks_eq_self {cs : List Char} (h : ∀ c, cs.head? = some c → isBlank c = false) :
    cs.dropWhile isBlank = cs := by
  cases cs with
  | nil => rfl
  | cons c cs => exact List.dropWhile_cons_of_neg (ne_true_of_eq_false (h c rfl))

theorem trimBlanks_eq_self {cs : List Char} (hhead : ∀ c, cs.head? = some c → isBlank c = false)
    (hlast : ∀ c, cs.getLast? = some c → isBlank c = false) : trimBlanks cs = cs := by
  have hlast' : ∀ c, cs.reverse.head? = some c → isBlank c = false := by rwa [List.head?_reverse]
  rw [trimBlanks, dropBlanks_eq_self hhead, dropBlanks_eq_self hlast', List.reverse_reverse]

theorem trimBlanks_blank_cons (cs : List Char) : trimBlanks (' ' :: cs) = trimBlanks cs := rfl

section
variable {name operand : List Char}

theorem operandPieces_blank_cons (hoperand : ∀ c ∈ operand, isPlain c = true) (hne : operand ≠ []) :
    operandPieces (' ' :: operand) = [operand] := by
  have htrim : trimBlanks (' ' :: operand) = operand := by
    rw [trimBlanks_blank_cons]
    exact trimBlanks_eq_self (fun c hc => isBlank_of_isPlain (hoperand c (List.mem_of_head? hc)))
      fun c hc => isBlank_of_isPlain (hoperand c (List.mem_of_getLast? hc))
  have hcommas : ∀ c ∈ ' ' :: operand, c ≠ ',' :=
    List.forall_mem_cons.mpr ⟨by decide, fun c hc => ne_comma_of_isPlain (hoperand c hc)⟩
  rw [operandPieces, htrim, if_neg hne, splitCommas_of_plain hcommas, List.map_singleton, htrim]

theorem assembleText_name (hname : ∀ c ∈ name, isPlain c = true) (hname' : name ≠ []) :
    assembleText name = (readCommand name []).map assembleLine := by
  have hcomment : dropComment name = name :=
    List.takeWhile_eq_self_iff.mpr fun c hc => bne_iff_ne.mpr (ne_semicolon_of_isPlain (hname c hc))
  have htrim : trimBlanks name = name :=
    trimBlanks_eq_self (fun c hc => isBlank_of_isPlain (hname c (List.mem_of_head? hc)))
      fun c hc => isBlank_of_isPlain (hname c (List.mem_of_getLast? hc))
  have htake : name.takeWhile (fun c => !isBlank c) = name :=
    List.takeWhile_eq_self_iff.mpr fun c hc => by simp [isBlank_of_isPlain (hname c hc)]
  simp only [assembleText, hcomment, htrim, htake, List.drop_length]
  exact if_neg hname'

/-- The operands may hold commas and inner blanks, but no comment and no blank at their end. -/
theorem assembleText_name_operands {rest : List Char} (hname : ∀ c ∈ name, isPlain c = true) (hname' : name ≠ [])
    (hcomment : ∀ c ∈ rest, c ≠ ';') (hlast : ∀ c, rest.getLast? = some c → isBlank c = false) (hrest : rest ≠ []) :
    assembleText (name ++ ' ' :: rest) = (readCommand name (operandPieces (' ' :: rest))).map assembleLine := by
  have hcomment' : dropComment (name ++ ' ' :: rest) = name ++ ' ' :: rest := by
    refine List.takeWhile_eq_self_iff.mpr (List.forall_mem_append.mpr ⟨?_, List.forall_mem_cons.mpr ⟨by decide, ?_⟩⟩)
    · exact fun c hc => bne_iff_ne.mpr (ne_semicolon_of_isPlain (hname c hc))
    · exact fun c hc => bne_iff_ne.mpr (hcomment c hc)
  have htrim : trimBlanks (name ++ ' ' :: rest) = name ++ ' ' :: rest := by
    refine trimBlanks_eq_self (fun c hc => ?_) fun c hc => ?_
    · rw [List.head?_append_of_ne_nil _ hname'] at hc
      exact isBlank_of_isPlain (hname c (List.mem_of_head? hc))
    · rw [List.getLast?_append_of_ne_nil _ (List.cons_ne_nil _ _), List.getLast?_cons_of_ne_nil hrest] at hc
      exact hlast c hc
  have htake : (name ++ ' ' :: rest).takeWhile (fun c => !isBlank c) = name := by
    rw [List.takeWhile_append_of_pos fun c hc => by simp [isBlank_of_isPlain (hname c hc)]]
    simp [isBlank]
  simp only [assembleText, hcomment', htrim, htake, List.drop_left]
  exact if_neg (by simp)

theorem assembleText_name_operand (hname : ∀ c ∈ name, isPlain c = true) (hname' : name ≠ [])
    (hoperand : ∀ c ∈ operand, isPlain c = true) (hoperand' : operand ≠ []) :
    assembleText (name ++ ' ' :: operand) = (readCommand name [operand]).map assembleLine := by
  rw [assembleText_name_operands hname hname' (fun c hc => ne_semicolon_of_isPlain (hoperand c hc))
    (fun c hc => isBlank_of_isPlain (hoperand c (List.mem_of_getLast? hc))) hoperand',
    operandPieces_blank_cons hoperand hoperand']

end

/-! The operands of each format. -/

theorem readNamedBit_append_bitSpelling (name : List Char) (b : Bool) :
    readNamedBit name (name ++ bitSpelling b) = some b := by
  simp [readNamedBit]

theorem readFh_spelling (fast heat : Bool) :
    readFh ["fast=".toList ++ bitSpelling fast, "heat=".toList ++ bitSpelling heat] = some (fast, heat) := by
  simp only [readFh, readNamedBit_append_bitSpelling]

theorem readHp_spelling (hp : Bool) : readHp ["hp=".toList ++ bitSpelling hp] = some hp :=
  readNamedBit_append_bitSpelling _ hp

theorem fhSpelling_eq (fast heat : Bool) : fhSpelling fast heat =
    ' ' :: ("fast=".toList ++ bitSpelling fast ++ ',' :: ' ' :: ("heat=".toList ++ bitSpelling heat)) := by
  have hdef : fhSpelling fast heat =
    " fast=".toList ++ bitSpelling fast ++ ", heat=".toList ++ bitSpelling heat := rfl
  have hfast : " fast=".toList = ' ' :: "fast=".toList := by simp
  have hheat : ", heat=".toList = ',' :: ' ' :: "heat=".toList := by simp
  rw [hdef, hfast, hheat]
  simp only [List.cons_append, List.append_assoc]

theorem operandPieces_fhSpelling (fast heat : Bool) : operandPieces (fhSpelling fast heat) =
    ["fast=".toList ++ bitSpelling fast, "heat=".toList ++ bitSpelling heat] := by
  cases fast <;> cases heat <;> decide +kernel

theorem assembleText_fh {name : List Char} (hname : ∀ c ∈ name, isPlain c = true) (hname' : name ≠ [])
    (fast heat : Bool) : assembleText (name ++ fhSpelling fast heat) =
      (readCommand name ["fast=".toList ++ bitSpelling fast, "heat=".toList ++ bitSpelling heat]).map assembleLine := by
  rw [← operandPieces_fhSpelling, fhSpelling_eq]
  refine assembleText_name_operands hname hname' ?_ ?_ (by simp)
  · cases fast <;> cases heat <;> simp [bitSpelling]
  · cases fast <;> cases heat <;> simp [bitSpelling, isBlank]

/-! The reading of each mnemonic with operands of format FH. -/

theorem readCommand_startTemp (ops : List (List Char)) : readCommand "START_TEMP".toList ops =
    (readFh ops).map fun p => .command (.startTemp p.1 p.2) := by
  simp [readCommand]

theorem readCommand_startHum (ops : List (List Char)) : readCommand "START_HUM".toList ops =
    (readFh ops).map fun p => .command (.startHum p.1 p.2) := by
  simp [readCommand]

theorem readCommand_measureTemp (ops : List (List Char)) : readCommand "MEASURE_TEMP".toList ops =
    (readFh ops).map fun p => .measureTemp p.1 p.2 := by
  simp [readCommand]

theorem readCommand_measureHum (ops : List (List Char)) : readCommand "MEASURE_HUM".toList ops =
    (readFh ops).map fun p => .measureHum p.1 p.2 := by
  simp [readCommand]

/-! The lines a word is spelled as, and the pseudo-instructions. -/

theorem printLine_command (i : Instr) : printLine (.command i) = i.mnemonic.toList ++ operandSpelling i := rfl

theorem printLine_word (w : CmdWord) : printLine (.word w) = ".word ".toList ++ hexSpelling 4 w.toNat := rfl

theorem isPlain_mnemonic (i : Instr) : ∀ c ∈ i.mnemonic.toList, isPlain c = true := by
  cases i <;> simp [Instr.mnemonic, isPlain, isBlank]

theorem mnemonic_ne_nil (i : Instr) : i.mnemonic.toList ≠ [] := by
  cases i <;> simp [Instr.mnemonic]

theorem operandSpelling_of_z {i : Instr} (hi : i.format = .z) : operandSpelling i = [] := by
  cases i with
  | setConfig | startTemp | startHum | compHum => cases hi
  | getId | getStatus | getConfig | isConverting | waitConv | readResult | getLastTemp | getLastHum => rfl

theorem assembleText_z {i : Instr} (hi : i.format = .z) : assembleText (printLine (.command i)) = some [encode i] := by
  rw [printLine_command, operandSpelling_of_z hi, List.append_nil, assembleText_name (isPlain_mnemonic i)
    (mnemonic_ne_nil i)]
  cases i with
  | setConfig | startTemp | startHum | compHum => cases hi
  | getId | getStatus | getConfig | isConverting | waitConv | readResult | getLastTemp | getLastHum =>
    simp [readCommand, readZ, Instr.mnemonic, assembleLine]

theorem hexSpelling_ne_nil (digits n : Nat) : hexSpelling digits n ≠ [] := by simp [hexSpelling]

theorem assembleText_setConfig (cfg : Byte) :
    assembleText (printLine (.command (.setConfig cfg))) = some [encode (.setConfig cfg)] := by
  have hspelling : operandSpelling (.setConfig cfg) = ' ' :: hexSpelling 2 cfg.toNat := rfl
  rw [printLine_command, hspelling, assembleText_name_operand (isPlain_mnemonic _) (mnemonic_ne_nil _)
    (isPlain_hexSpelling 2 _) (hexSpelling_ne_nil 2 _)]
  simp [readCommand, readImm_hexSpelling, assembleLine, Instr.mnemonic]

theorem operandSpelling_compHum (hp : Bool) :
    operandSpelling (.compHum hp) = ' ' :: ("hp=".toList ++ bitSpelling hp) := by
  have hdef : operandSpelling (.compHum hp) = " hp=".toList ++ bitSpelling hp := rfl
  have hblank : " hp=".toList = ' ' :: "hp=".toList := by simp
  rw [hdef, hblank, List.cons_append]

theorem readCommand_compHum (ops : List (List Char)) :
    readCommand "COMP_HUM".toList ops = (readHp ops).map fun hp => .command (.compHum hp) := by
  simp [readCommand]

theorem assembleText_compHum (hp : Bool) :
    assembleText (printLine (.command (.compHum hp))) = some [encode (.compHum hp)] := by
  have hplain : ∀ c ∈ "hp=".toList ++ bitSpelling hp, isPlain c = true := by
    cases hp <;> simp [bitSpelling, isPlain, isBlank]
  rw [printLine_command, operandSpelling_compHum, assembleText_name_operand (isPlain_mnemonic _) (mnemonic_ne_nil _)
    hplain (by simp), Instr.mnemonic, readCommand_compHum, readHp_spelling]
  rfl

theorem assembleText_startTemp (fast heat : Bool) :
    assembleText (printLine (.command (.startTemp fast heat))) = some [encode (.startTemp fast heat)] := by
  have hspelling : operandSpelling (.startTemp fast heat) = fhSpelling fast heat := rfl
  rw [printLine_command, hspelling, assembleText_fh (isPlain_mnemonic _) (mnemonic_ne_nil _), Instr.mnemonic,
    readCommand_startTemp, readFh_spelling]
  rfl

theorem assembleText_startHum (fast heat : Bool) :
    assembleText (printLine (.command (.startHum fast heat))) = some [encode (.startHum fast heat)] := by
  have hspelling : operandSpelling (.startHum fast heat) = fhSpelling fast heat := rfl
  rw [printLine_command, hspelling, assembleText_fh (isPlain_mnemonic _) (mnemonic_ne_nil _), Instr.mnemonic,
    readCommand_startHum, readFh_spelling]
  rfl

theorem assembleText_command (i : Instr) : assembleText (printLine (.command i)) = some [encode i] := by
  cases i with
  | setConfig cfg => exact assembleText_setConfig cfg
  | startTemp fast heat => exact assembleText_startTemp fast heat
  | startHum fast heat => exact assembleText_startHum fast heat
  | compHum hp => exact assembleText_compHum hp
  | getId | getStatus | getConfig | isConverting | waitConv | readResult | getLastTemp | getLastHum =>
    exact assembleText_z rfl

theorem assembleText_word (w : CmdWord) : assembleText (printLine (.word w)) = some [w] := by
  have hword : ".word ".toList = ".word".toList ++ [' '] := by simp
  rw [printLine_word, hword, List.append_assoc, List.singleton_append,
    assembleText_name_operand (by simp [isPlain, isBlank]) (by simp) (isPlain_hexSpelling 4 _) (hexSpelling_ne_nil 4 _)]
  simp [readCommand, readWord_hexSpelling, assembleLine]

theorem assembleText_measureTemp (fast heat : Bool) :
    assembleText (printLine (.measureTemp fast heat)) = some (assembleLine (.measureTemp fast heat)) := by
  have htext : printLine (.measureTemp fast heat) = "MEASURE_TEMP".toList ++ fhSpelling fast heat := rfl
  rw [htext, assembleText_fh (by simp [isPlain, isBlank]) (by simp), readCommand_measureTemp, readFh_spelling]
  rfl

theorem assembleText_measureHum (fast heat : Bool) :
    assembleText (printLine (.measureHum fast heat)) = some (assembleLine (.measureHum fast heat)) := by
  have htext : printLine (.measureHum fast heat) = "MEASURE_HUM".toList ++ fhSpelling fast heat := rfl
  rw [htext, assembleText_fh (by simp [isPlain, isBlank]) (by simp), readCommand_measureHum, readFh_spelling]
  rfl

/-- Settles O7: a legal word is spelled as its command, whose encoding it is, and an illegal one by its digits. -/
theorem assemblerReadsTheDisassembly : Obligations.AssemblerReadsTheDisassembly := by
  refine ⟨fun w => ?_, fun f h => ⟨assembleText_measureTemp f h, assembleText_measureHum f h⟩⟩
  rw [disassemble, disassembleWord]
  cases hdecode : decode w with
  | none => exact assembleText_word w
  | some i =>
    rw [← encode_of_decode hdecode]
    exact assembleText_command i

end Sys2Proof.Machine
end
